-- ==== Sys2Proof/Word.lean ====
section
/-! DEFINITION. The plain data the spec names: the byte, the 48-byte chunk as one 384-bit vector, the 128-bit command
word, and the trit. No operation on them stands here: each is in a file under Machine/. -/

namespace Sys2Proof

/-- A byte is a bit vector of width 8 (00_scope.md R10): one register of BUF, or one character code of YMEM. -/
abbrev Byte := BitVec 8

/-- A byte chunk: the 48 bytes `b[0] .. b[47]` read as the 384-bit vector `b[0], b[1], .., b[47]`, byte 0 in bits
383:376 (20_memory.md R52; DESIGN CHOICE, log entry 12). A block fed to the external primitive and a digest it returns have the same shape (R191). -/
abbrev Block := BitVec 384

/-- A command word `CW`: 128 bits, a bit vector with no byte order (30_encoding.md R70). -/
abbrev CommandWord := BitVec 128

/-- A trit: an integer in −1, 0, 1 (00_scope.md R6, R12 and the glossary). -/
inductive Trit where
  /-- the trit −1 -/
  | neg
  /-- the trit 0 -/
  | zero
  /-- the trit +1 -/
  | pos
deriving DecidableEq, Repr, Inhabited

end Sys2Proof
end

