-- ==== Sys2Proof/Syntax.lean ====
section
/-! DEFINITION. The seven commands of the opcode map (30_encoding.md R72), one constructor per row of
spec/opcode_table.json, each with the fields its row uses and no other (R73: a field a command does not use has no
effect). -/

namespace Sys2Proof

/-- A command. `a` is the field `A` as the unsigned base in TMEM, `b` the field `B` as the unsigned base in YMEM, `n` the
field `N` as a signed length (30_encoding.md R70, R71): mathematical integers, since every sum over them is exact
(20_memory.md R51, D36). The ranges the fields have are checked in WellFormed. -/
inductive Instr where
  /-- `NEW` (R151): a fresh engine -/
  | new
  /-- `ABSORB A, N` (R152): `N` trits from TMEM cell `A` on into the sponge state -/
  | absorb (a : Nat) (n : Int)
  /-- `SQUEEZE A, N` (R158): `N` trits of output to TMEM cell `A` on -/
  | squeeze (a : Nat) (n : Int)
  /-- `Y2T A, B, N` (R104): `N` symbols from YMEM cell `B` on to trits at TMEM cell `A` on -/
  | y2t (a b : Nat) (n : Int)
  /-- `T2Y A, B, N` (R105): `N` trits from TMEM cell `A` on to symbols at YMEM cell `B` on -/
  | t2y (a b : Nat) (n : Int)
  /-- `T2B A` (R132): the chunk at TMEM cell `A` to BUF -/
  | t2b (a : Nat)
  /-- `B2T A` (R133): BUF to the chunk at TMEM cell `A` -/
  | b2t (a : Nat)
deriving DecidableEq, Repr

end Sys2Proof
end

