-- ==== Sys2Proof/WellFormed.lean ====
section
/-! DEFINITION. What a command word can say: the ranges of the fields `A`, `B` and `N` (30_encoding.md R70, R71). -/

namespace Sys2Proof

/-- `A` and `B` are unsigned 32-bit fields: 0 .. 2^32 − 1 (R71). -/
def offsetFits (a : Nat) : Bool := decide (a < 2 ^ 32)

/-- `N` is a signed two's-complement 32-bit field: −2^31 .. 2^31 − 1 (R71). -/
def lengthFits (n : Int) : Bool := decide (-(2 ^ 31) ≤ n ∧ n < 2 ^ 31)

/-- Every field the command uses is in the range its field of the command word has. -/
def Instr.wellFormed : Instr → Bool
  | .new => true
  | .absorb a n => offsetFits a && lengthFits n
  | .squeeze a n => offsetFits a && lengthFits n
  | .y2t a b n => offsetFits a && offsetFits b && lengthFits n
  | .t2y a b n => offsetFits a && offsetFits b && lengthFits n
  | .t2b a => offsetFits a
  | .b2t a => offsetFits a

end Sys2Proof
end

