-- ==== Sys2Proof/Decode.lean ====
section
/-! DEFINITION. The command word (30_encoding.md R70 to R74): its four fields, the decoder, total on all 2^128 words,
and the encoder. -/

namespace Sys2Proof

/-- Why a word is no command. -/
inductive DecodeError where
  /-- The whole 32-bit field `OP` is the opcode, and it is 0 or greater than 7 (R74). Safe: issuing such a word takes the
  error `IllegalCommand`, which the spec describes (R215). -/
  | illegalOpcode (op : BitVec 32)
deriving DecidableEq, Repr

/-- `OP`, bits 31:0 (R70). -/
def opField (cw : CommandWord) : BitVec 32 := cw.extractLsb' 0 32

/-- `A`, bits 63:32, used as `uint` (R70, R71). -/
def aField (cw : CommandWord) : Nat := (cw.extractLsb' 32 32).toNat

/-- `B`, bits 95:64, used as `uint` (R70, R71). -/
def bField (cw : CommandWord) : Nat := (cw.extractLsb' 64 32).toNat

/-- `N`, bits 127:96, used as `sint` (R70, R71). -/
def nField (cw : CommandWord) : Int := (cw.extractLsb' 96 32).toInt

/-- The command a word stands for: the opcode map of R72 on the whole `OP` field; unused fields are not looked at (R73);
every other opcode is rejected by name (R74). -/
def decode (cw : CommandWord) : Except DecodeError Instr :=
  match (opField cw).toNat with
  | 1 => .ok .new
  | 2 => .ok (.absorb (aField cw) (nField cw))
  | 3 => .ok (.squeeze (aField cw) (nField cw))
  | 4 => .ok (.y2t (aField cw) (bField cw) (nField cw))
  | 5 => .ok (.t2y (aField cw) (bField cw) (nField cw))
  | 6 => .ok (.t2b (aField cw))
  | 7 => .ok (.b2t (aField cw))
  | _ => .error (.illegalOpcode (opField cw))

/-- `CW = N, B, A, OP` from the most significant field down (R70). -/
def commandWord (op a b : Nat) (n : Int) : CommandWord :=
  ((BitVec.ofInt 32 n ++ BitVec.ofNat 32 b) ++ BitVec.ofNat 32 a) ++ BitVec.ofNat 32 op

/-- The word of a command, a field it does not use written as 0 (R72, R73, R84). -/
def encode : Instr → CommandWord
  | .new => commandWord 1 0 0 0
  | .absorb a n => commandWord 2 a 0 n
  | .squeeze a n => commandWord 3 a 0 n
  | .y2t a b n => commandWord 4 a b n
  | .t2y a b n => commandWord 5 a b n
  | .t2b a => commandWord 6 a 0 0
  | .b2t a => commandWord 7 a 0 0

/-- The opcode of a command (R72). -/
def Instr.opcode : Instr → Nat
  | .new => 1
  | .absorb _ _ => 2
  | .squeeze _ _ => 3
  | .y2t _ _ _ => 4
  | .t2y _ _ _ => 5
  | .t2b _ => 6
  | .b2t _ => 7

/-- The bits of the command word that the command's decoding reads: `OP` and the used fields of R72's table. -/
def Instr.usedMask : Instr → CommandWord
  | .new => 0x00000000000000000000000000000000FFFFFFFF#128
  | .absorb _ _ => 0xFFFFFFFF00000000FFFFFFFFFFFFFFFF#128
  | .squeeze _ _ => 0xFFFFFFFF00000000FFFFFFFFFFFFFFFF#128
  | .y2t _ _ _ => 0xFFFFFFFFFFFFFFFFFFFFFFFFFFFFFFFF#128
  | .t2y _ _ _ => 0xFFFFFFFFFFFFFFFFFFFFFFFFFFFFFFFF#128
  | .t2b _ => 0x0000000000000000FFFFFFFFFFFFFFFF#128
  | .b2t _ => 0x0000000000000000FFFFFFFFFFFFFFFF#128

/-- The command word whose low `nbits` bits are `w` and whose other bits are 0: the word is handed over whole, so its
bits are numbered as the opcode table numbers them (R70). -/
def tableWord (nbits w : Nat) : CommandWord := BitVec.ofNat 128 (w % 2 ^ nbits)

/-- What the decoder reads from a row's word of spec/opcode_table.json. -/
def decodeTableWord (nbits w : Nat) : Option Instr :=
  match decode (tableWord nbits w) with
  | .ok i => some i
  | .error _ => none

end Sys2Proof
end

