-- ==== Sys2Proof/Config.lean ====
section
/-! DEFINITION. The four parameters the spec leaves OPEN (00_scope.md R7, 93_implementation_defined.md): the external
primitive `H`, the policy `P_SQZ_TOP`, and the memory sizes `N_T` and `N_Y`. They are no state (10_state.md R21). Every
operation of the machine takes them as an argument `p : Params`; the machine itself runs on `Config.params`, whose four
parts are opaque constants, so that nothing proved about it rests on a particular value. -/

namespace Sys2Proof

/-- `P_SQZ_TOP`: what SQUEEZE writes at trit 242 of each output chunk (42_sponge.md R162). -/
inductive SqueezeTop where
  /-- `as_converted`: the trit that `bytesToTrits` gives -/
  | asConverted
  /-- `forced_zero`: the trit 0 -/
  | forcedZero
deriving DecidableEq, Repr, Inhabited

/-- The open parameters, as one argument of every operation (00_scope.md R7; 10_state.md R21). -/
structure Params where
  /-- `H`: from the list of blocks fed since the last `PI_NEW` to a digest; nothing else is assumed of it (R193). -/
  hash : List Block → Block
  /-- `P_SQZ_TOP` (R162) -/
  squeezeTop : SqueezeTop
  /-- `N_T`: the number of cells of TMEM -/
  sizeT : Nat
  /-- `N_Y`: the number of cells of YMEM -/
  sizeY : Nat

/-- The range of the sizes: 243 ≤ `N_T` ≤ 2^32 and 0 ≤ `N_Y` ≤ 2^32 (00_scope.md R7, D33). -/
def Params.Valid (p : Params) : Prop :=
  243 ≤ p.sizeT ∧ p.sizeT ≤ 2 ^ 32 ∧ p.sizeY ≤ 2 ^ 32

/-- DESIGN CHOICE (log entry 1), safe: `H` of this machine, an uninterpreted constant (43_permutation_interface.md R190,
R193). -/
opaque Config.hash : List Block → Block

/-- DESIGN CHOICE (log entry 1), safe: `P_SQZ_TOP` of this machine, an uninterpreted constant (R162). -/
opaque Config.squeezeTop : SqueezeTop

/-- DESIGN CHOICE (log entry 1), safe: how many cells TMEM has beyond the 243 it has at least, uninterpreted: 0 to
2^32 − 243. -/
opaque Config.extraT : Fin (2 ^ 32 - 243 + 1)

/-- DESIGN CHOICE (log entry 1), safe: how many cells YMEM has, uninterpreted: 0 to 2^32. -/
opaque Config.cellsY : Fin (2 ^ 32 + 1)

/-- The parameters this machine runs on: every value R7 admits, and no other, is possible for each part. -/
def Config.params : Params where
  hash := Config.hash
  squeezeTop := Config.squeezeTop
  sizeT := Config.extraT.val + 243
  sizeY := Config.cellsY.val

end Sys2Proof
end

