-- ==== Sys2Proof/Machine/State.lean ====
section
/-! DEFINITION. The state of one instance of the block: the seven items of 10_state.md R20, and three fields of the
model's own that hold the host's side of a run (the actions still to come, the value the last action returned). -/

namespace Sys2Proof.Machine

/-- `PHASE`, where the engine is in its lifecycle (10_state.md R26, 30_encoding.md R83). Code 3 is never produced, and the
type leaves it out, as 93_implementation_defined.md U6 allows (DESIGN CHOICE, log entry 5). -/
inductive Phase where
  /-- code 0: a context was created, nothing absorbed or squeezed -/
  | fresh
  /-- code 1: at least one ABSORB has completed, no SQUEEZE has -/
  | absorbing
  /-- code 2: at least one SQUEEZE has completed since the last NEW -/
  | squeezing
deriving DecidableEq, Repr

/-- `ERR`, the result code of the last command (10_state.md R27, R28; 30_encoding.md R82). Codes 7 to 15 are never
produced, and the type leaves them out (U6; DESIGN CHOICE, log entry 5). -/
inductive ErrCode where
  /-- code 0: the outcome was `ok` -/
  | ok
  /-- code 1: a length ≤ 0 or no multiple of 243 in ABSORB or SQUEEZE (R211) -/
  | invalidInput
  /-- code 2: a character outside the alphabet in Y2T (R212) -/
  | invalidSymbol
  /-- code 3: a count that is no multiple of 3 in T2Y (R213) -/
  | invalidLength
  /-- code 4: a value outside the signed 384-bit range in T2B (R214) -/
  | overflow
  /-- code 5: `OP` is 0 or greater than 7 (R215) -/
  | illegalCommand
  /-- code 6: an addressed range that does not lie inside its memory (R216) -/
  | badRange
deriving DecidableEq, Repr

/-- A space of cells of `w` bits (20_memory.md R50): the cells written since reset as pairs of index and contents, the
indices strictly rising. A cell that is not listed is unwritten and holds no value (10_state.md R40; log entry 2). For `w` = 8 an
entry is a `Host.Cell`. -/
abbrev Memory (w : Nat) := List (Nat × BitVec w)

/-- The canonical form of a memory: indices strictly rising. An unlisted cell holds no value, so no entry can equal what
an unlisted cell reads as. -/
def Memory.wf {w : Nat} : Memory w → Bool
  | [] => true
  | [_] => true
  | (a, _) :: (b, v) :: rest => decide (a < b) && Memory.wf ((b, v) :: rest)

/-- What the host may do between commands (10_state.md R41). -/
inductive HostAction where
  /-- `Issue(cw)`: execute the command word to completion -/
  | issue (cw : CommandWord)
  /-- `HostWriteT(a, t)` -/
  | writeT (a : Nat) (t : Trit)
  /-- `HostReadT(a)` -/
  | readT (a : Nat)
  /-- `HostWriteY(b, c)` -/
  | writeY (b : Nat) (c : Byte)
  /-- `HostReadY(b)` -/
  | readY (b : Nat)
  /-- `HostWriteBUF(j, v)` -/
  | writeBuf (j : Nat) (v : Byte)
  /-- `HostReadBUF(j)` -/
  | readBuf (j : Nat)
  /-- `HostReadSTATUS()` -/
  | readStatus
deriving DecidableEq, Repr

/-- What can happen to the block from outside, one at a time (20_memory.md R57, R62): a host action, or a hardware reset
(70_reset_and_hazards.md R240). DESIGN CHOICE (log entry 4): a reset may stand between two actions. -/
inductive Event where
  /-- a host action -/
  | host (act : HostAction)
  /-- hardware reset -/
  | reset
deriving DecidableEq, Repr

/-- The value a host action returns (10_state.md R41). -/
inductive Response where
  /-- returned by `HostReadT` -/
  | trit (t : Trit)
  /-- returned by `HostReadY` -/
  | symbol (c : Byte)
  /-- returned by `HostReadBUF` -/
  | byte (v : Byte)
  /-- returned by `HostReadSTATUS` -/
  | status (w : BitVec 32)
deriving DecidableEq, Repr

/-- The block never stops with a fault: its errors are codes in `STATUS.ERR` after which it goes on (60_exceptions.md
R219, R220), and what the spec gives no meaning is a refusal (R222). The type has no constructor. -/
inductive Fault where
deriving DecidableEq, Repr

/-- The refusals (60_exceptions.md R222): situations the spec gives no meaning. All are safe: the model stops where a
hardware might go on, so nothing is claimed of it. -/
inductive Refusal where
  /-- ABSORB with a valid length and range while `PHASE` is SQUEEZING (R164). Raised by ABSORB. Safe. -/
  | absorbAfterSqueeze
  /-- A command or a host read touches a cell of TMEM, YMEM or BUF never written since reset (R40, R67). Raised by ABSORB,
  Y2T, T2Y, T2B, B2T, `HostReadT`, `HostReadY`, `HostReadBUF`. The spec states the stop and forbids a value for such a cell
  (R40; 92_eei_decisions.md D27; 93_implementation_defined.md U4, U10). Safe. -/
  | unwrittenCell
  /-- A TMEM cell read holds the pattern `10`, which is no trit (R68, R76). Raised by ABSORB, T2Y, T2B, `HostReadT`.
  Safe. -/
  | notATrit
  /-- A host action names a cell outside its memory (R41). Raised by the six host actions that name a cell. Safe. -/
  | hostIndexOutOfRange
  /-- An instruction that has no meaning in the model: none is left, so nothing raises it. Safe. -/
  | notModelled (mnemonic : String)
deriving DecidableEq, Repr

/-- The state. The first seven fields are the whole architectural state (R20); `pending` and `response` are the host's
side of a run, the model's own (log entry 4). -/
structure State where
  /-- `CTX.blocks`: the blocks fed since the last `PI_NEW`, oldest first (R23, R24) -/
  ctx : List Block
  /-- `STATUS.PHASE` (R26) -/
  phase : Phase
  /-- `STATUS.ERR` (R27, R28) -/
  err : ErrCode
  /-- `BUF[0..47]`: 48 byte registers, those written since reset listed (R22, R40) -/
  buf : Memory 8
  /-- `TMEM`: `N_T` cells of 2 bits (R29), each a pattern, so that `10` can stand in one (DESIGN CHOICE, log entry 11) -/
  tmem : Memory 2
  /-- `YMEM`: `N_Y` cells of 8 bits (R32) -/
  ymem : Memory 8
  /-- `REFUSED`, the model's mark that an action of the run was refused (R37) -/
  refused : Bool
  /-- the model's own: what the outside will still do, next first (R30, R244) -/
  pending : List Event
  /-- the model's own: what the last host action returned, if it returns a value (R41) -/
  response : Option Response
deriving DecidableEq, Repr

/-- The outcome of a command: `ok` and `error(E)` are next states, `refused(reason)` is a refusal (00_scope.md R13). -/
abbrev Result := Host.Outcome State Fault Refusal

/-- The machine right after hardware reset (10_state.md R38, R241): the engine as NEW leaves it, `ERR` 0, every cell of
BUF, TMEM and YMEM unwritten, nothing refused; idle, with no action pending. -/
def State.reset : State where
  ctx := []
  phase := .fresh
  err := .ok
  buf := []
  tmem := []
  ymem := []
  refused := false
  pending := []
  response := none

/-- `s` with `CTX.blocks` replaced. -/
def State.setCtx (s : State) (c : List Block) : State := { s with ctx := c }

/-- `s` with `PHASE` replaced. -/
def State.setPhase (s : State) (ph : Phase) : State := { s with phase := ph }

/-- `s` with `ERR` replaced. -/
def State.setErr (s : State) (e : ErrCode) : State := { s with err := e }

/-- `s` with BUF replaced. -/
def State.setBuf (s : State) (m : Memory 8) : State := { s with buf := m }

/-- `s` with TMEM replaced. -/
def State.setTmem (s : State) (m : Memory 2) : State := { s with tmem := m }

/-- `s` with YMEM replaced. -/
def State.setYmem (s : State) (m : Memory 8) : State := { s with ymem := m }

/-- `s` with the mark `REFUSED` set. -/
def State.markRefused (s : State) : State := { s with refused := true }

/-- `s` with the actions still to come replaced. -/
def State.setPending (s : State) (es : List Event) : State := { s with pending := es }

/-- `s` with the returned value replaced. -/
def State.setResponse (s : State) (r : Option Response) : State := { s with response := r }

end Sys2Proof.Machine
end

