-- ==== Sys2Proof/Machine/Ops.lean ====
section
/-! DEFINITION. The named operations every command is made of: reading and writing cells, ending a command, the error
entry (the only exception the block takes), the permutation interface, and hardware reset. -/

namespace Sys2Proof.Machine

/-- The contents of a cell; none for a cell nothing has written since reset (10_state.md R40). -/
def Memory.read {w : Nat} : Memory w → Nat → Option (BitVec w)
  | [], _ => none
  | (b, v) :: rest, a => if b = a then some v else Memory.read rest a

/-- `m` after `cell a <- v` (00_scope.md R12): the listed cells stay in rising order, each once. -/
def Memory.write {w : Nat} : Memory w → Nat → BitVec w → Memory w
  | [], a, v => [(a, v)]
  | (b, u) :: rest, a, v =>
    if a < b then (a, v) :: (b, u) :: rest
    else if a = b then (a, v) :: rest
    else (b, u) :: Memory.write rest a v

/-- `MemRead(space, a, n)`: the cells `a .. a+n−1` in increasing order (00_scope.md R12, 20_memory.md R51); a cell nothing
has written is refused (R67). -/
def Memory.readCells {w : Nat} (m : Memory w) : Nat → Nat → Except Refusal (List (BitVec w))
  | _, 0 => .ok []
  | a, n + 1 =>
    match m.read a with
    | none => .error .unwrittenCell
    | some v =>
      match Memory.readCells m (a + 1) n with
      | .error r => .error r
      | .ok vs => .ok (v :: vs)

/-- `MemWrite(space, a, n, vs)`: `vs[i]` to cell `a+i`, in increasing `i` (00_scope.md R12). -/
def Memory.writeCells {w : Nat} (m : Memory w) : Nat → List (BitVec w) → Memory w
  | _, [] => m
  | a, v :: vs => Memory.writeCells (m.write a v) (a + 1) vs

/-- A command that ends `ok` writes `STATUS.ERR <- 0` (00_scope.md R13, 10_state.md R28). -/
def complete (s : State) : Result := .next (s.setErr .ok)

/-- `raise E`, the error entry (60_exceptions.md R219; 00_scope.md R12): `STATUS.ERR <- code(E)` and nothing else; no
vector, no saved state, no mode. There is no return from it: the block is ready for the next command at once (R220). -/
def raise (e : ErrCode) (s : State) : Result := .next (s.setErr e)

/-- `refuse(reason)`: the spec gives no meaning and there is no state after it (00_scope.md R12, R13; R223). -/
def refuse (r : Refusal) : Result := .refused r

/-- `PI_NEW()`: a fresh context (43_permutation_interface.md R191, R192). -/
def piNew : List Block := []

/-- `PI_UPDATE(c, b)`: the context having absorbed `b` after everything `c` had absorbed (R191, R192). -/
def piUpdate (c : List Block) (b : Block) : List Block := c ++ [b]

/-- `PI_DIGEST(c)`: `H(c.blocks)`; the context stays as it was (R193, R194). -/
def piDigest (p : Params) (c : List Block) : Block := p.hash c

/-- Hardware reset (70_reset_and_hazards.md R240; 10_state.md R38): the engine as NEW leaves it, `ERR` 0, every cell of
BUF, TMEM and YMEM unwritten. The mark `REFUSED` is not cleared (R37). -/
def hardwareReset (s : State) : State :=
  { s with ctx := piNew, phase := .fresh, err := .ok, buf := [], tmem := [], ymem := [] }

end Sys2Proof.Machine
end

