-- ==== Sys2Proof/Machine/Operands.lean ====
section
/-! DEFINITION. The operand forms: the trit cell (30_encoding.md R76), the range of cells at a base (20_memory.md R51),
and the 48 bytes of a chunk (R52). -/

namespace Sys2Proof

/-- The integer a trit is (00_scope.md R12). -/
def Trit.toInt : Trit → Int
  | .neg => -1
  | .zero => 0
  | .pos => 1

/-- The trit of opposite sign (41_base_conversion.md R120, R128). -/
def Trit.negate : Trit → Trit
  | .neg => .pos
  | .zero => .zero
  | .pos => .neg

/-- The 2-bit two's-complement pattern of a trit (30_encoding.md R76). -/
def Trit.pattern : Trit → BitVec 2
  | .neg => 0b11#2
  | .zero => 0b00#2
  | .pos => 0b01#2

/-- The trit of a 2-bit pattern; `10` is not a trit (R76, 20_memory.md R68). -/
def Trit.ofPattern (v : BitVec 2) : Option Trit :=
  if v = 0b00#2 then some .zero
  else if v = 0b01#2 then some .pos
  else if v = 0b11#2 then some .neg
  else none

end Sys2Proof

namespace Sys2Proof.Machine

/-- The range of `count` cells at `base` runs past the `size` cells of its memory: the sum is exact, with no wrap-around
at 2^32 (20_memory.md R51). -/
abbrev RunsPast (base count size : Nat) : Prop := size < base + count

/-- One trit cell read: refused where nothing has been written (20_memory.md R67) or where it holds no trit (R68). -/
def readTrit (m : Memory 2) (a : Nat) : Except Refusal Trit :=
  match m.read a with
  | none => .error .unwrittenCell
  | some v =>
    match Trit.ofPattern v with
    | none => .error .notATrit
    | some t => .ok t

/-- The trits of the cells `a .. a+n−1`, in increasing order (R51, R53). DESIGN CHOICE (log entry 6): where several cells
cannot be read, the reason is that of the lowest. -/
def readTrits (m : Memory 2) : Nat → Nat → Except Refusal (List Trit)
  | _, 0 => .ok []
  | a, n + 1 =>
    match readTrit m a with
    | .error r => .error r
    | .ok t =>
      match readTrits m (a + 1) n with
      | .error r => .error r
      | .ok ts => .ok (t :: ts)

/-- Trits to the cells from `a` on (R53, R76). -/
def writeTrits (m : Memory 2) (a : Nat) (ts : List Trit) : Memory 2 := m.writeCells a (ts.map Trit.pattern)

/-- Byte `j` of a chunk, 0 ≤ `j` ≤ 47: `b[0]` holds bits 383:376 and `b[47]` bits 7:0 (20_memory.md R52; log entry 10). -/
def blockByte (b : Block) (j : Nat) : Byte := b.extractLsb' (8 * (47 - j)) 8

/-- The 48 bytes of a chunk, `b[0]` first (R52). -/
def blockBytes (b : Block) : List Byte := (List.range 48).map (blockByte b)

/-- The chunk whose bytes are the list, the first most significant (R52). -/
def blockOfBytes (bs : List Byte) : Block := BitVec.ofNat 384 (bs.foldl (fun acc v => acc * 256 + v.toNat) 0)

/-- The bitwise complement of a chunk, byte by byte `~d[j]` (42_sponge.md R161). -/
def invertBlock (d : Block) : Block := ~~~d

end Sys2Proof.Machine
end

