-- ==== Sys2Proof/Machine/Converter.lean ====
section
/-! DEFINITION. The 384-bit converter (41_base_conversion.md): the value of a trit sequence, the value of a byte chunk,
the digit step, and the two pure functions. Every integer is a mathematical integer until it is rendered into 48 bytes
(00_scope.md R8). -/

namespace Sys2Proof.Machine

/-- `V(t)`, the sum of `t[i] · 3^i` (41_base_conversion.md R120), the least significant trit first (20_memory.md R53). -/
def tritValue : List Trit → Int
  | [] => 0
  | t :: ts => t.toInt + 3 * tritValue ts

/-- `S(b)`: the chunk as a signed two's-complement integer (20_memory.md R52, R122). -/
def blockValue (b : Block) : Int := b.toInt

/-- `render(v)`: `v mod 2^384` in 48 bytes, big-endian (30_encoding.md R81). -/
def render (v : Int) : Block := BitVec.ofInt 384 v

/-- `bal3(q)`: the balanced-ternary digit of `q` and the quotient left (41_base_conversion.md R123). The remainder is the
floored one (00_scope.md R11). -/
def bal3 (q : Int) : Trit × Int :=
  if q % 3 = 0 then (.zero, q / 3)
  else if q % 3 = 1 then (.pos, (q - 1) / 3)
  else (.neg, (q + 1) / 3)

/-- `n` applications of `bal3` to `q`: the digits, least significant first, and the quotient left (R124, R126). -/
def digits : Nat → Int → List Trit × Int
  | 0, q => ([], q)
  | n + 1, q =>
    match bal3 q with
    | (d, q') =>
      match digits n q' with
      | (ds, r) => (d :: ds, r)

/-- `tritsToBytes(t)` for a chunk of 243 trits (41_base_conversion.md R125): `Overflow` outside −2^383 .. 2^383 − 1. -/
def tritsToBytes (ts : List Trit) : Except ErrCode Block :=
  if tritValue ts < -(2 ^ 383) ∨ tritValue ts > 2 ^ 383 - 1 then .error .overflow
  else .ok (render (tritValue ts))

/-- `bytesToTrits(b)` (41_base_conversion.md R126): 243 trits, least significant first; the check the source states is
kept, though no 48-byte chunk can fail it (R127). -/
def bytesToTrits (b : Block) : Except ErrCode (List Trit) :=
  match digits 243 (blockValue b) with
  | (ts, q) => if q ≠ 0 then .error .overflow else .ok ts

end Sys2Proof.Machine
end

