-- ==== Sys2Proof/Machine/Convert.lean ====
section
/-! DEFINITION. The conversion commands T2B and B2T (41_base_conversion.md R132, R133). Neither masks the top trit. -/

namespace Sys2Proof.Machine

/-- T2B (41_base_conversion.md R132): range (60_exceptions.md R216), cells (20_memory.md R67, R68), value (R214); BUF is
written only after all three. -/
def t2bWith (p : Params) (a : Nat) (s : State) : Result :=
  if RunsPast a 243 p.sizeT then raise .badRange s
  else
    match readTrits s.tmem a 243 with
    | .error r => refuse r
    | .ok ts =>
      match tritsToBytes ts with
      | .error e => raise e s
      | .ok b => complete (s.setBuf (s.buf.writeCells 0 (blockBytes b)))

/-- B2T (41_base_conversion.md R133): range (60_exceptions.md R216), then the 48 bytes of BUF (20_memory.md R67). -/
def b2tWith (p : Params) (a : Nat) (s : State) : Result :=
  if RunsPast a 243 p.sizeT then raise .badRange s
  else
    match s.buf.readCells 0 48 with
    | .error r => refuse r
    | .ok bs =>
      match bytesToTrits (blockOfBytes bs) with
      | .error e => raise e s
      | .ok ts => complete (s.setTmem (writeTrits s.tmem a ts))

/-- `T2B A` (R132). -/
def execT2b (a : Nat) (s : State) : Result := t2bWith Config.params a s

/-- `B2T A` (R133). -/
def execB2t (a : Nat) (s : State) : Result := b2tWith Config.params a s

end Sys2Proof.Machine
end

