-- ==== Sys2Proof/Machine/Sponge.lean ====
section
/-! DEFINITION. The sponge engine (42_sponge.md): NEW, ABSORB and SQUEEZE. -/

namespace Sys2Proof.Machine

/-- The chunk the engine hands to the codec: trit 242 read as 0, whatever the cell holds (42_sponge.md R154; log entry 10). -/
def maskTop (c : List Trit) : List Trit := c.set 242 .zero

/-- The chunk loop of ABSORB (42_sponge.md R152, R153): `k` chunks of 243 trits, in order, each masked, converted and fed
to the context; an error of the conversion would end it (R125). -/
def absorbLoop : Nat → List Trit → List Block → Except ErrCode (List Block)
  | 0, _, c => .ok c
  | k + 1, ts, c =>
    (tritsToBytes (maskTop (ts.take 243))).bind fun b => absorbLoop k (ts.drop 243) (piUpdate c b)

/-- The chunk SQUEEZE writes for the converted digest, by `P_SQZ_TOP` (42_sponge.md R162). -/
def topPolicy (p : Params) (t : List Trit) : List Trit :=
  match p.squeezeTop with
  | .asConverted => t
  | .forcedZero => t.set 242 .zero

/-- The chunk loop of SQUEEZE (42_sponge.md R158 to R161): `k` chunks from cell `a` on, each the converted digest of the
context, after which the context is reseeded with the complement of the digest. -/
def squeezeLoop (p : Params) : Nat → Nat → List Block → Memory 2 → Except ErrCode (List Block × Memory 2)
  | 0, _, c, m => .ok (c, m)
  | k + 1, a, c, m =>
    (bytesToTrits (piDigest p c)).bind fun t =>
      squeezeLoop p k (a + 243) (piUpdate piNew (invertBlock (piDigest p c))) (writeTrits m a (topPolicy p t))

/-- NEW (42_sponge.md R151). -/
def newWith (s : State) : Result := complete ((s.setCtx piNew).setPhase .fresh)

/-- ABSORB (42_sponge.md R152), the checks in the order of 60_exceptions.md R218: length (R157), range (R216), phase
(R164), cells (R67, R68). -/
def absorbWith (p : Params) (a : Nat) (n : Int) (s : State) : Result :=
  if n ≤ 0 ∨ n % 243 ≠ 0 then raise .invalidInput s
  else if RunsPast a n.toNat p.sizeT then raise .badRange s
  else if s.phase = .squeezing then refuse .absorbAfterSqueeze
  else
    match readTrits s.tmem a n.toNat with
    | .error r => refuse r
    | .ok ts =>
      match absorbLoop (n.toNat / 243) ts s.ctx with
      | .error e => raise e s
      | .ok c => complete ((s.setCtx c).setPhase .absorbing)

/-- SQUEEZE (42_sponge.md R158), in every phase, FRESH too (R165; DESIGN CHOICE, log entry 9): length (R168; for a positive
length that is no multiple of 243, 90_conflicts.md C4, log entry 8), then range (R216). -/
def squeezeWith (p : Params) (a : Nat) (n : Int) (s : State) : Result :=
  if n ≤ 0 ∨ n % 243 ≠ 0 then raise .invalidInput s
  else if RunsPast a n.toNat p.sizeT then raise .badRange s
  else
    match squeezeLoop p (n.toNat / 243) a s.ctx s.tmem with
    | .error e => raise e s
    | .ok (c, m) => complete (((s.setCtx c).setTmem m).setPhase .squeezing)

/-- `NEW` (R151). -/
def execNew (s : State) : Result := newWith s

/-- `ABSORB A, N` (R152). -/
def execAbsorb (a : Nat) (n : Int) (s : State) : Result := absorbWith Config.params a n s

/-- `SQUEEZE A, N` (R158). -/
def execSqueeze (a : Nat) (n : Int) (s : State) : Result := squeezeWith Config.params a n s

end Sys2Proof.Machine
end

