-- ==== Sys2Proof/Machine/TryteLookup.lean ====
section
/-! DEFINITION. The tryte lookup (40_tryte_lookup.md): the 27-symbol alphabet, its table of triples, and the two pure
functions over it. -/

namespace Sys2Proof.Machine

/-- The table of 30_encoding.md R79, in the order of R78: code, `t0`, `t1`, `t2`, the least significant trit first
(20_memory.md R54; log entry 10). -/
def tryteTable : List (Byte × Trit × Trit × Trit) :=
  [(0x39, .zero, .zero, .zero),
   (0x41, .pos, .zero, .zero), (0x42, .neg, .pos, .zero), (0x43, .zero, .pos, .zero),
   (0x44, .pos, .pos, .zero), (0x45, .neg, .neg, .pos), (0x46, .zero, .neg, .pos),
   (0x47, .pos, .neg, .pos), (0x48, .neg, .zero, .pos), (0x49, .zero, .zero, .pos),
   (0x4A, .pos, .zero, .pos), (0x4B, .neg, .pos, .pos), (0x4C, .zero, .pos, .pos),
   (0x4D, .pos, .pos, .pos), (0x4E, .neg, .neg, .neg), (0x4F, .zero, .neg, .neg),
   (0x50, .pos, .neg, .neg), (0x51, .neg, .zero, .neg), (0x52, .zero, .zero, .neg),
   (0x53, .pos, .zero, .neg), (0x54, .neg, .pos, .neg), (0x55, .zero, .pos, .neg),
   (0x56, .pos, .pos, .neg), (0x57, .neg, .neg, .zero), (0x58, .zero, .neg, .zero),
   (0x59, .pos, .neg, .zero), (0x5A, .neg, .zero, .zero)]

/-- `sym_to_triple`: the triple of a code, none for the 229 codes outside the alphabet (40_tryte_lookup.md R102). -/
def symToTriple (c : Byte) : Option (Trit × Trit × Trit) :=
  (tryteTable.find? (fun row => row.1 == c)).map (fun row => row.2)

/-- The code of the symbol at a position 0 .. 26 of `9ABC..Z`: ASCII, `9` 0x39 and `A` to `Z` 0x41 to 0x5A
(30_encoding.md R77, R78). -/
def symbolAt (pos : Nat) : Byte := if pos = 0 then 0x39#8 else BitVec.ofNat 8 (0x40 + pos)

/-- The value of a triple, `t0 + 3·t1 + 9·t2` (20_memory.md R54). -/
def tripleValue (t0 t1 t2 : Trit) : Int := t0.toInt + 3 * t1.toInt + 9 * t2.toInt

/-- `triple_to_sym`: the code of the symbol at position `v mod 27` for the triple's value `v` (30_encoding.md R78,
40_tryte_lookup.md R101, R102). -/
def tripleToSym (t0 t1 t2 : Trit) : Byte := symbolAt (tripleValue t0 t1 t2 % 27).toNat

/-- `trytesToTrits(s)` (40_tryte_lookup.md R100): the triples of the symbols in order; `InvalidSymbol` where one is outside
the alphabet. -/
def trytesToTrits : List Byte → Except ErrCode (List Trit)
  | [] => .ok []
  | c :: cs =>
    match symToTriple c with
    | none => .error .invalidSymbol
    | some (t0, t1, t2) =>
      match trytesToTrits cs with
      | .error e => .error e
      | .ok ts => .ok (t0 :: t1 :: t2 :: ts)

/-- The symbols of a trit sequence, one for each group of three; what is left after the last whole group has none. -/
def groupSymbols : List Trit → List Byte
  | t0 :: t1 :: t2 :: ts => tripleToSym t0 t1 t2 :: groupSymbols ts
  | _ => []

/-- `tritsToTrytes(t)` (40_tryte_lookup.md R101): `InvalidLength` where the length is no multiple of 3. -/
def tritsToTrytes (ts : List Trit) : Except ErrCode (List Byte) :=
  if ts.length % 3 ≠ 0 then .error .invalidLength else .ok (groupSymbols ts)

end Sys2Proof.Machine
end

