-- ==== Sys2Proof/Machine/Tryte.lean ====
section
/-! DEFINITION. The tryte commands Y2T and T2Y (40_tryte_lookup.md R104 to R106). -/

namespace Sys2Proof.Machine

/-- Y2T (40_tryte_lookup.md R104): range (60_exceptions.md R216), cells (20_memory.md R67), symbols (R212); all checked
before the first trit is written. -/
def y2tWith (p : Params) (a b : Nat) (n : Int) (s : State) : Result :=
  if n < 0 ∨ RunsPast b n.toNat p.sizeY ∨ RunsPast a (3 * n.toNat) p.sizeT then raise .badRange s
  else
    match s.ymem.readCells b n.toNat with
    | .error r => refuse r
    | .ok cs =>
      match trytesToTrits cs with
      | .error e => raise e s
      | .ok ts => complete (s.setTmem (writeTrits s.tmem a ts))

/-- T2Y (40_tryte_lookup.md R105): length (60_exceptions.md R213), range (R216), cells (20_memory.md R67, R68). -/
def t2yWith (p : Params) (a b : Nat) (n : Int) (s : State) : Result :=
  if n % 3 ≠ 0 then raise .invalidLength s
  else if n < 0 ∨ RunsPast a n.toNat p.sizeT ∨ RunsPast b (n.toNat / 3) p.sizeY then raise .badRange s
  else
    match readTrits s.tmem a n.toNat with
    | .error r => refuse r
    | .ok ts =>
      match tritsToTrytes ts with
      | .error e => raise e s
      | .ok cs => complete (s.setYmem (s.ymem.writeCells b cs))

/-- `Y2T A, B, N` (R104). -/
def execY2t (a b : Nat) (n : Int) (s : State) : Result := y2tWith Config.params a b n s

/-- `T2Y A, B, N` (R105). -/
def execT2y (a b : Nat) (n : Int) (s : State) : Result := t2yWith Config.params a b n s

end Sys2Proof.Machine
end

