-- ==== Sys2Proof/Machine/Dispatch.lean ====
section
/-! DEFINITION. What each command does: one arm per constructor of Instr, each one call of its meaning. -/

namespace Sys2Proof.Machine

def exec (i : Instr) (s : State) : Host.Outcome State Fault Refusal :=
  match i with
  | .new => Sys2Proof.Machine.execNew s
  | .absorb a n => Sys2Proof.Machine.execAbsorb a n s
  | .squeeze a n => Sys2Proof.Machine.execSqueeze a n s
  | .y2t a b n => Sys2Proof.Machine.execY2t a b n s
  | .t2y a b n => Sys2Proof.Machine.execT2y a b n s
  | .t2b a => Sys2Proof.Machine.execT2b a s
  | .b2t a => Sys2Proof.Machine.execB2t a s

end Sys2Proof.Machine
end

