-- ==== Sys2Proof/Machine/Flags.lean ====
section
/-! DEFINITION. The STATUS register (10_state.md R27): the block has no other flag, and no condition code (R34). -/

namespace Sys2Proof.Machine

/-- The 2-bit code of a phase (10_state.md R26, 30_encoding.md R83). -/
def Phase.code : Phase → BitVec 2
  | .fresh => 0#2
  | .absorbing => 1#2
  | .squeezing => 2#2

/-- The 4-bit code of a result (30_encoding.md R82). -/
def ErrCode.code : ErrCode → BitVec 4
  | .ok => 0#4
  | .invalidInput => 1#4
  | .invalidSymbol => 2#4
  | .invalidLength => 3#4
  | .overflow => 4#4
  | .illegalCommand => 5#4
  | .badRange => 6#4

/-- `STATUS`: `ERR` in bits 3:0, `PHASE` in bits 5:4, bits 31:6 read as zero (10_state.md R27). -/
def statusWord (s : State) : BitVec 32 := (0#26 ++ s.phase.code) ++ s.err.code

end Sys2Proof.Machine
end

