-- ==== Sys2Proof/Machine/HostPort.lean ====
section
/-! DEFINITION. The host actions of 10_state.md R41 but `Issue`: single-cell writes and reads of TMEM, YMEM and BUF, and
the read of STATUS. An index outside its limits is refused, and so is a read of a cell nothing has written (R40, R67).
A read changes nothing but the value handed to the host (20_memory.md R60). -/

namespace Sys2Proof.Machine

/-- `HostWriteT(a, t)`: `TMEM[a] <- t` (R41). -/
def hostWriteT (p : Params) (a : Nat) (t : Trit) (s : State) : Result :=
  if a < p.sizeT then .next (s.setTmem (s.tmem.write a t.pattern)) else refuse .hostIndexOutOfRange

/-- `HostReadT(a)` returns `TMEM[a]` (R41). DEDUCED (log entry 7): a cell that holds no trit is refused here too. -/
def hostReadT (p : Params) (a : Nat) (s : State) : Result :=
  if a < p.sizeT then
    match readTrit s.tmem a with
    | .error r => refuse r
    | .ok t => .next (s.setResponse (some (.trit t)))
  else refuse .hostIndexOutOfRange

/-- `HostWriteY(b, c)`: `YMEM[b] <- c`, any 8-bit `c` (R41). -/
def hostWriteY (p : Params) (b : Nat) (c : Byte) (s : State) : Result :=
  if b < p.sizeY then .next (s.setYmem (s.ymem.write b c)) else refuse .hostIndexOutOfRange

/-- `HostReadY(b)` returns `YMEM[b]` (R41). -/
def hostReadY (p : Params) (b : Nat) (s : State) : Result :=
  if b < p.sizeY then
    match s.ymem.read b with
    | none => refuse .unwrittenCell
    | some c => .next (s.setResponse (some (.symbol c)))
  else refuse .hostIndexOutOfRange

/-- `HostWriteBUF(j, v)`: `BUF[j] <- v`, any 8-bit `v` (R41). -/
def hostWriteBuf (j : Nat) (v : Byte) (s : State) : Result :=
  if j < 48 then .next (s.setBuf (s.buf.write j v)) else refuse .hostIndexOutOfRange

/-- `HostReadBUF(j)` returns `BUF[j]` (R41). -/
def hostReadBuf (j : Nat) (s : State) : Result :=
  if j < 48 then
    match s.buf.read j with
    | none => refuse .unwrittenCell
    | some v => .next (s.setResponse (some (.byte v)))
  else refuse .hostIndexOutOfRange

/-- `HostReadSTATUS()` returns the 32-bit STATUS (R41, R27). -/
def hostReadStatus (s : State) : Result := .next (s.setResponse (some (.status (statusWord s))))

end Sys2Proof.Machine
end

