-- ==== Sys2Proof/Machine/Issue.lean ====
section
/-! DEFINITION. How the block comes to its next command: there is no program counter and no fetch from memory
(10_state.md R30, 20_memory.md R65); the host hands a command word over whole, and the machine takes the outside's next
action from `pending`. -/

namespace Sys2Proof.Machine

/-- `Issue(cw)` (10_state.md R41): the command runs to completion; a word that is no command ends with the error
`IllegalCommand`, before anything else is looked at (30_encoding.md R74, 60_exceptions.md R215). -/
def issueWord (cw : CommandWord) (s : State) : Result :=
  match decode cw with
  | .ok i => exec i s
  | .error _ => raise .illegalCommand s

/-- One host action (10_state.md R41). -/
def hostAction (act : HostAction) (s : State) : Result :=
  match act with
  | .issue cw => issueWord cw s
  | .writeT a t => hostWriteT Config.params a t s
  | .readT a => hostReadT Config.params a s
  | .writeY b c => hostWriteY Config.params b c s
  | .readY b => hostReadY Config.params b s
  | .writeBuf j v => hostWriteBuf j v s
  | .readBuf j => hostReadBuf j s
  | .readStatus => hostReadStatus s

/-- One event from outside. -/
def perform (ev : Event) (s : State) : Result :=
  match ev with
  | .host act => hostAction act s
  | .reset => .next (hardwareReset s)

/-- One step: the next pending event takes place, whole (20_memory.md R57, R62); the last returned value is gone. With
nothing pending the block is idle (70_reset_and_hazards.md R241, 60_exceptions.md R233). -/
def advance (s : State) : Result :=
  match s.pending with
  | [] => .next s
  | ev :: rest => perform ev ((s.setPending rest).setResponse none)

/-- `s` with a command word at the head of what the host will do: the next step issues it. -/
def queueWord (s : State) (cw : CommandWord) : State := s.setPending (.host (.issue cw) :: s.pending)

/-- DESIGN CHOICE (log entry 3): the state after an outcome, for a run (10_state.md R37, 60_exceptions.md R223): a refused action leaves the state it
found with the mark `REFUSED` set, and the run gives no other state after it. -/
def settle (s : State) (r : Result) : State :=
  match r with
  | .next t => t
  | .fault _ => s
  | .refused _ => s.markRefused

end Sys2Proof.Machine
end

