-- ==== Sys2Proof/Machine/Step.lean ====
section
/-! DEFINITION. The step of the machine, and how a command word is placed where the next step takes it from. -/

namespace Sys2Proof.Machine

/-- One step of the machine: the next event from outside. -/
def step (s : State) : Host.Outcome State Fault Refusal := advance s

/-- `s` with the command word `w` (its bits above `nbits` zero) as the host's next action. -/
def State.withFetchWord (s : State) (nbits w : Nat) : State := queueWord s (tableWord nbits w)

end Sys2Proof.Machine
end

