-- ==== Sys2Proof/Machine/Assembler.lean ====
section
/-! DEFINITION. The textual form of a command (30_encoding.md R84), written and read, and the pseudo-instructions (R85). A
notation only: no step of the machine uses it (D28). -/

namespace Sys2Proof

/-- The mnemonic (30_encoding.md R72). -/
def Instr.mnemonic : Instr → String
  | .new => "NEW"
  | .absorb _ _ => "ABSORB"
  | .squeeze _ _ => "SQUEEZE"
  | .y2t _ _ _ => "Y2T"
  | .t2y _ _ _ => "T2Y"
  | .t2b _ => "T2B"
  | .b2t _ => "B2T"

/-- The used fields in the order `A`, `B`, `N`, in decimal (R84). -/
def Instr.operandTexts : Instr → List String
  | .new => []
  | .absorb a n => [toString a, toString n]
  | .squeeze a n => [toString a, toString n]
  | .y2t a b n => [toString a, toString b, toString n]
  | .t2y a b n => [toString a, toString b, toString n]
  | .t2b a => [toString a]
  | .b2t a => [toString a]

/-- The line of a command: the mnemonic, then its fields separated by commas (R84). -/
def Instr.asmText (i : Instr) : String :=
  match i.operandTexts with
  | [] => i.mnemonic
  | ops => i.mnemonic ++ " " ++ String.intercalate ", " ops

/-- `SQUEEZE A` stands for `SQUEEZE A, 243` (R85). -/
def Instr.squeezeAt (a : Nat) : Instr := .squeeze a 243

/-- `SQUEEZE` stands for `SQUEEZE 0, 243` (R85). -/
def Instr.squeezeDefault : Instr := .squeeze 0 243

/-- What separates words on a line. -/
def isBlank (c : Char) : Bool := c == ' ' || c == '\t'

/-- The text without the blanks before and after it. -/
def trimBlanks (cs : List Char) : List Char := ((cs.dropWhile isBlank).reverse.dropWhile isBlank).reverse

/-- The parts of a text between its commas. -/
def splitCommas : List Char → List (List Char)
  | [] => [[]]
  | c :: cs =>
    match splitCommas cs with
    | [] => [[c]]
    | f :: fs => if c == ',' then [] :: f :: fs else (c :: f) :: fs

/-- The value of a digit in the base, none for any other character. DESIGN CHOICE (log entry 15): letters of either case. -/
def digitValue (base : Nat) (c : Char) : Option Nat :=
  let n := c.toNat
  let d := if 48 ≤ n ∧ n ≤ 57 then n - 48 else if 97 ≤ n ∧ n ≤ 102 then n - 87 else if 65 ≤ n ∧ n ≤ 70 then n - 55 else base
  if d < base then some d else none

/-- The digits from the most significant on, after the value read so far. -/
def readDigits (base acc : Nat) : List Char → Option Nat
  | [] => some acc
  | c :: cs =>
    match digitValue base c with
    | none => none
    | some d => readDigits base (acc * base + d) cs

/-- A number: decimal, or hexadecimal with `0x` (R84). -/
def readNumber : List Char → Option Nat
  | [] => none
  | ['0', 'x'] => none
  | '0' :: 'x' :: cs => readDigits 16 0 cs
  | cs => readDigits 10 0 cs

/-- A number that may carry a minus sign (R84). -/
def readSigned : List Char → Option Int
  | '-' :: cs => (readNumber cs).map (fun n => -(n : Int))
  | cs => (readNumber cs).map (fun n => (n : Int))

/-- The command of a mnemonic and its fields in the order `A`, `B`, `N` (R84), the two pseudo-instructions among them
(R85). -/
def commandOf (name : List Char) (fields : List (List Char)) : Option Instr :=
  match fields with
  | [] =>
    if name = "NEW".toList then some .new
    else if name = "SQUEEZE".toList then some .squeezeDefault
    else none
  | [fa] =>
    (readNumber fa).bind fun a =>
      if name = "T2B".toList then some (.t2b a)
      else if name = "B2T".toList then some (.b2t a)
      else if name = "SQUEEZE".toList then some (.squeezeAt a)
      else none
  | [fa, fn] =>
    (readNumber fa).bind fun a => (readSigned fn).bind fun n =>
      if name = "ABSORB".toList then some (.absorb a n)
      else if name = "SQUEEZE".toList then some (.squeeze a n)
      else none
  | [fa, fb, fn] =>
    (readNumber fa).bind fun a => (readNumber fb).bind fun b => (readSigned fn).bind fun n =>
      if name = "Y2T".toList then some (.y2t a b n)
      else if name = "T2Y".toList then some (.t2y a b n)
      else none
  | _ => none

/-- The command a line says, `;` starting a comment (R84); none for a line that says no command, or one whose numbers do not
fit their fields (R71). -/
def readCommand (line : String) : Option Instr :=
  let text := trimBlanks (line.toList.takeWhile (fun c => c != ';'))
  let rest := trimBlanks (text.dropWhile (fun c => !isBlank c))
  let fields := if rest.isEmpty then [] else (splitCommas rest).map trimBlanks
  (commandOf (text.takeWhile (fun c => !isBlank c)) fields).filter Instr.wellFormed

/-- The word the assembler writes for a line (R84, R86). -/
def assemble (line : String) : Option CommandWord := (readCommand line).map encode

end Sys2Proof
end

