-- ==== Sys2Proof/Machine/Instances.lean ====
section
/-! DEFINITION. Several instances of the block (20_memory.md R64, 60_exceptions.md R231), in a form that is a DESIGN CHOICE (log
entry 13). Each is a whole `State` of its own;
there is nothing beside the list, so nothing is shared, and no command of `Instr` names another instance, takes a lock or
reads and writes a cell in one access. The parameters are those of `Config.params` for every instance (R231). -/

namespace Sys2Proof.Machine

/-- One step of one instance, with a refusal kept in its own mark (10_state.md R37, 60_exceptions.md R223): the other
instances go on. -/
def advanceInstance (s : State) : State := settle s (step s)

/-- One step of the instance at position `k`; where there is none, nothing happens. -/
def stepInstance (k : Nat) (ms : List State) : List State := ms.modify k advanceInstance

/-- Steps of the instances in the order of a schedule. Instances that run at the same time (R231) are any schedule: each
step is atomic (20_memory.md R57). -/
def runInstances : List Nat → List State → List State
  | [], ms => ms
  | k :: ks, ms => runInstances ks (stepInstance k ms)

end Sys2Proof.Machine
end

