-- ==== Sys2Proof/Safety.lean ====
section
/-! DEFINITION. Runs and good runs (70_reset_and_hazards.md R244), what a sound state of the block is, and the words the
statements use: cells that hold given contents, commands in sequence, and the tables of 60_exceptions.md. -/

namespace Sys2Proof.Machine

/-- At most `k` steps from `s`, ending at the first refusal with the mark `REFUSED` set (10_state.md R37, R223). -/
def runSteps : Nat → State → State
  | 0, s => s
  | k + 1, s =>
    match step s with
    | .next t => runSteps k t
    | .fault f => settle s (.fault f)
    | .refused r => settle s (.refused r)

/-- The run of a finite list of events from the reset state (R244). -/
def run (es : List Event) : State := runSteps es.length (State.reset.setPending es)

/-- A good run: no action was refused (R244). An error code does not make a run bad. -/
def GoodRun (es : List Event) : Prop := (run es).refused = false

/-- One command after another: the second runs only where the first gave a next state (10_state.md R30). -/
def andThen (r : Result) (next : State → Result) : Result :=
  match r with
  | .next t => next t
  | .fault f => .fault f
  | .refused e => .refused e

/-- The meaning of a command over any parameters: `exec` is this at `Config.params`. Statements that name a range no
machine with a small memory has are made over every `p`. -/
def commandWith (p : Params) (i : Instr) (s : State) : Result :=
  match i with
  | .new => newWith s
  | .absorb a n => absorbWith p a n s
  | .squeeze a n => squeezeWith p a n s
  | .y2t a b n => y2tWith p a b n s
  | .t2y a b n => t2yWith p a b n s
  | .t2b a => t2bWith p a s
  | .b2t a => b2tWith p a s

/-- The cells from `a` on hold the contents `vs`, one each. -/
def HoldsCells {w : Nat} (m : Memory w) (a : Nat) (vs : List (BitVec w)) : Prop :=
  ∀ i (h : i < vs.length), m.read (a + i) = some vs[i]

/-- The cells from `a` on hold the trits `ts`, one each, in the pattern of 30_encoding.md R76. -/
def HoldsTrits (m : Memory 2) (a : Nat) (ts : List Trit) : Prop :=
  ∀ i (h : i < ts.length), m.read (a + i) = some (ts[i]).pattern

/-- The digests a squeeze sequence takes from the context `blocks`, counted from 0: the first is `H(blocks)`, each later
one `H([~d])` for the digest `d` before it (42_sponge.md R163). -/
def nthDigest (p : Params) (blocks : List Block) : Nat → Block
  | 0 => p.hash blocks
  | j + 1 => p.hash [~~~(nthDigest p blocks j)]

/-- The command's own length rule rejects it (60_exceptions.md R211, R213; step 2 of R218). -/
def lengthFails : Instr → Prop
  | .absorb _ n => n ≤ 0 ∨ n % 243 ≠ 0
  | .squeeze _ n => n ≤ 0 ∨ n % 243 ≠ 0
  | .t2y _ _ n => n % 3 ≠ 0
  | _ => False

/-- The table of 60_exceptions.md R216: an addressed range does not lie inside its memory, or a count is negative. The
sums are exact integers. -/
def rangeFails (p : Params) : Instr → Prop
  | .new => False
  | .absorb a n => (a : Int) + n > p.sizeT
  | .squeeze a n => (a : Int) + n > p.sizeT
  | .y2t a b n => n < 0 ∨ (b : Int) + n > p.sizeY ∨ (a : Int) + 3 * n > p.sizeT
  | .t2y a b n => n < 0 ∨ (a : Int) + n > p.sizeT ∨ (b : Int) + n / 3 > p.sizeY
  | .t2b a => (a : Int) + 243 > p.sizeT
  | .b2t a => (a : Int) + 243 > p.sizeT

/-- The error columns of the table of 60_exceptions.md R217: whether a command can end with the code. -/
def mayEndWith : Instr → ErrCode → Bool
  | _, .ok => true
  | .absorb _ _, .invalidInput => true
  | .squeeze _ _, .invalidInput => true
  | .y2t _ _ _, .invalidSymbol => true
  | .t2y _ _ _, .invalidLength => true
  | .t2b _, .overflow => true
  | .new, _ => false
  | _, .badRange => true
  | _, _ => false

/-- The last column of that table: whether a command can be refused for the reason. -/
def mayBeRefusedFor : Instr → Refusal → Bool
  | .absorb _ _, .absorbAfterSqueeze => true
  | .absorb _ _, .unwrittenCell => true
  | .absorb _ _, .notATrit => true
  | .y2t _ _ _, .unwrittenCell => true
  | .t2y _ _ _, .unwrittenCell => true
  | .t2y _ _ _, .notATrit => true
  | .t2b _, .unwrittenCell => true
  | .t2b _, .notATrit => true
  | .b2t _, .unwrittenCell => true
  | _, _ => false

/-- Every listed cell has an index below the size of its memory: the memories never grow (10_state.md R33). -/
def Memory.within {w : Nat} (m : Memory w) (size : Nat) : Prop := ∀ a, size ≤ a → m.read a = none

/-- No cell of TMEM holds the pattern that is no trit: no command and no host action writes it (20_memory.md R68). -/
def allTrits (m : Memory 2) : Prop := ∀ a, m.read a ≠ some 0b10#2

/-- The memories are sound: in canonical form, within their sizes, and TMEM holds nothing but trits. -/
structure MemoriesSound (s : State) : Prop where
  tmemWf : s.tmem.wf = true
  ymemWf : s.ymem.wf = true
  bufWf : s.buf.wf = true
  tmemWithin : s.tmem.within Config.params.sizeT
  ymemWithin : s.ymem.within Config.params.sizeY
  bufWithin : s.buf.within 48
  tmemTrits : allTrits s.tmem

/-- The sponge state agrees with the phase (10_state.md R26, 42_sponge.md R150, R161): nothing fed in FRESH, at least one
block in ABSORBING, exactly the complement of one digest in SQUEEZING. -/
def EngineSound (s : State) : Prop :=
  match s.phase with
  | .fresh => s.ctx = []
  | .absorbing => s.ctx ≠ []
  | .squeezing => ∃ blocks, s.ctx = [~~~(Config.params.hash blocks)]

end Sys2Proof.Machine
end

