-- ==== Sys2Proof/Certificates/Slice0/Obligations.lean ====
section
/-! DEFINITION. The statements for the provers. Each docstring names the rule of spec/ it formalises, or says that it rests
on a choice of the model. `exec` runs on `Config.params`, whose parts are uninterpreted, so every statement about it
holds for every value of the open parameters (00_scope.md R7). A statement about a range that a machine with few cells
does not have is made over all parameters `p`; `exec` is the case `p = Config.params`, by definition. -/

open Sys2Proof Sys2Proof.Machine

/-- 30_encoding.md R86: the worked encodings, each assembled from the syntax of R84, decoded, and written back in it. -/
def Obligations.WorkedEncodings : Prop :=
  ∀ text cw i, (text, cw, i) ∈
    [("NEW", 0x00000000000000000000000000000001#128, Instr.new),
     ("ABSORB 0, 243", 0x000000F3000000000000000000000002#128, Instr.absorb 0 243),
     ("SQUEEZE 243, 486", 0x000001E600000000000000F300000003#128, Instr.squeeze 243 486),
     ("SQUEEZE 0, -243", 0xFFFFFF0D000000000000000000000003#128, Instr.squeeze 0 (-243)),
     ("Y2T 0, 0, 81", 0x00000051000000000000000000000004#128, Instr.y2t 0 0 81),
     ("T2Y 243, 100, 486", 0x000001E600000064000000F300000005#128, Instr.t2y 243 100 486),
     ("T2B 0", 0x00000000000000000000000000000006#128, Instr.t2b 0),
     ("B2T 0", 0x00000000000000000000000000000007#128, Instr.b2t 0)] →
    assemble text = some cw ∧ decode cw = .ok i ∧ encode i = cw ∧ i.asmText = text

/-- Decode and encode agree, for every command with every operand at every value its field admits (30_encoding.md R70 to
R72). -/
def Obligations.DecodeOfEncode : Prop :=
  ∀ i : Instr, i.wellFormed = true → decode (encode i) = .ok i

/-- 30_encoding.md R73: the decoder looks at the opcode and the used fields, at all of their bits and at no other bit; the
word written back has the used fields as they were and 0 in the others. -/
def Obligations.UnusedFieldsIgnored : Prop :=
  ∀ (cw : CommandWord) (i : Instr), decode cw = .ok i →
    i.wellFormed = true ∧ encode i = cw &&& i.usedMask ∧
    ∀ cw' : CommandWord, cw' &&& i.usedMask = cw &&& i.usedMask ↔ decode cw' = .ok i

/-- 30_encoding.md R74 and 60_exceptions.md R215: a word whose `OP` is 0 or greater than 7, and no other, is illegal;
issuing it writes `ERR` and changes nothing else. -/
def Obligations.IllegalOpcodeOnlySetsErr : Prop :=
  ∀ (cw : CommandWord),
    ((cw.toNat % 2 ^ 32 = 0 ∨ 7 < cw.toNat % 2 ^ 32) ↔
      decode cw = .error (.illegalOpcode (BitVec.ofNat 32 cw.toNat))) ∧
    ((cw.toNat % 2 ^ 32 = 0 ∨ 7 < cw.toNat % 2 ^ 32) → ∀ (s : State) (rest : List Event),
      s.pending = .host (.issue cw) :: rest →
      step s = .next { s with err := .illegalCommand, pending := rest, response := none })

/-- A step runs the decoded command: the word the host issues next is decoded and executed, with the action taken from
`pending` and the last returned value gone (30_encoding.md R70, 10_state.md R30; `pending` and `response` are the model's
own, log entry 4). -/
def Obligations.StepRunsDecodedCommand : Prop :=
  ∀ (s : State) (cw : CommandWord) (rest : List Event) (i : Instr),
    s.pending = .host (.issue cw) :: rest → decode cw = .ok i →
    step s = exec i { s with pending := rest, response := none }

/-- The model's choice (log entry 4, after 10_state.md R30, R41 and 70_reset_and_hazards.md R241): a step is the next host
action, and with nothing pending the block is idle. -/
def Obligations.StepTakesTheNextHostAction : Prop :=
  (∀ s : State, s.pending = [] → step s = .next s) ∧
  ∀ (s : State) (act : HostAction) (rest : List Event), s.pending = .host act :: rest →
    step s = hostAction act { s with pending := rest, response := none }

/-- 10_state.md R38: the reset state, and that its engine is what NEW leaves from any state. -/
def Obligations.ResetValues : Prop :=
  State.reset.ctx = [] ∧ State.reset.phase = .fresh ∧ State.reset.err = .ok ∧ statusWord State.reset = 0#32 ∧
  State.reset.refused = false ∧
  (∀ a, State.reset.tmem.read a = none) ∧ (∀ a, State.reset.ymem.read a = none) ∧
  (∀ j, State.reset.buf.read j = none) ∧
  ∀ s : State, ∃ t, exec .new s = .next t ∧ t.ctx = State.reset.ctx ∧ t.phase = State.reset.phase ∧
    t.err = State.reset.err

/-- 70_reset_and_hazards.md R240 with 10_state.md R37: a hardware reset re-creates the engine, leaves every cell unwritten,
and does not clear `REFUSED`. That a reset may stand between two actions is the model's choice (log entry 4). -/
def Obligations.HardwareResetEvent : Prop :=
  ∀ (s : State) (rest : List Event), s.pending = .reset :: rest →
    ∃ t, step s = .next t ∧ t.ctx = [] ∧ t.phase = .fresh ∧ t.err = .ok ∧
      (∀ a, t.tmem.read a = none) ∧ (∀ a, t.ymem.read a = none) ∧ (∀ j, t.buf.read j = none) ∧
      t.refused = s.refused ∧ t.pending = rest ∧ t.response = none

/-- The two invariants hold in the reset state. -/
def Obligations.ResetIsSound : Prop := MemoriesSound State.reset ∧ EngineSound State.reset

/-- Every step keeps the memories sound: in canonical form, no larger than `N_T`, `N_Y` and 48 (10_state.md R33, R22), and
no cell of TMEM with the pattern that is no trit (20_memory.md R68). -/
def Obligations.StepKeepsMemoriesSound : Prop :=
  ∀ s t : State, MemoriesSound s → step s = .next t → MemoriesSound t

/-- Every step keeps the sponge state in agreement with the phase (10_state.md R26, 42_sponge.md R150, R161). -/
def Obligations.StepKeepsEngineSound : Prop :=
  ∀ s t : State, EngineSound s → step s = .next t → EngineSound t

/-- 10_state.md R37: no step clears the mark `REFUSED`, and a run that was refused is refused however it goes on. -/
def Obligations.RefusalIsNeverCleared : Prop :=
  (∀ s t : State, step s = .next t → t.refused = s.refused) ∧
  ∀ es more : List Event, (run es).refused = true → (run (es ++ more)).refused = true

/-- 70_reset_and_hazards.md R244: a run is good exactly when each of its actions, in order, had a next state; commands that
end with an error do not make it bad. -/
def Obligations.GoodRunMeansNothingRefused : Prop :=
  ∀ es : List Event, GoodRun es ↔
    ∀ k, k < es.length → ∃ t, step (runSteps k (State.reset.setPending es)) = .next t

/-- 30_encoding.md R82 and R83: the codes of `ERR` and `PHASE`, in their places in STATUS (10_state.md R27), as the host
reads it. -/
def Obligations.StatusCodes : Prop :=
  (ErrCode.ok.code = 0#4 ∧ ErrCode.invalidInput.code = 1#4 ∧ ErrCode.invalidSymbol.code = 2#4 ∧
    ErrCode.invalidLength.code = 3#4 ∧ ErrCode.overflow.code = 4#4 ∧ ErrCode.illegalCommand.code = 5#4 ∧
    ErrCode.badRange.code = 6#4) ∧
  (Phase.fresh.code = 0#2 ∧ Phase.absorbing.code = 1#2 ∧ Phase.squeezing.code = 2#2 ∧ ∀ ph : Phase, ph.code ≠ 3#2) ∧
  ∀ (s : State) (rest : List Event), s.pending = .host .readStatus :: rest →
    ∃ w, step s = .next { s with pending := rest, response := some (.status w) } ∧
      w.toNat = s.err.code.toNat + 16 * s.phase.code.toNat

/-- 20_memory.md R52: the value of a byte chunk as the sum over its bytes, byte 0 the most significant; a chunk is its 48
bytes. -/
def Obligations.ByteChunkIsBigEndian : Prop :=
  (∀ b : Block, blockValue b =
    ((List.range 48).map (fun j => ((blockByte b j).toNat : Int) * 256 ^ (47 - j))).sum -
      (if (blockByte b 0).getLsbD 7 then 2 ^ 384 else 0)) ∧
  (∀ b : Block, blockOfBytes (blockBytes b) = b) ∧
  (∀ bs : List Byte, bs.length = 48 → blockBytes (blockOfBytes bs) = bs)

/-- 30_encoding.md R81: the representable values, the bytes of `render`, and that `render` and `S` are inverse. -/
def Obligations.RenderAndValueInverse : Prop :=
  (∀ b : Block, -(2 ^ 383) ≤ blockValue b ∧ blockValue b ≤ 2 ^ 383 - 1) ∧
  (∀ v : Int, -(2 ^ 383) ≤ v → v ≤ 2 ^ 383 - 1 →
    blockValue (render v) = v ∧
    ∀ j, j < 48 → ((blockByte (render v) j).toNat : Int) = v % 2 ^ 384 / 256 ^ (47 - j) % 256) ∧
  ∀ b : Block, render (blockValue b) = b

/-- 41_base_conversion.md R120: the value of a trit sequence is the sum of `t[i]·3^i`; the zero chunk has value 0;
negating every trit negates it. -/
def Obligations.TritValueIsWeightedSum : Prop :=
  (∀ ts : List Trit, tritValue ts =
    ((List.range ts.length).map (fun i => (ts.getD i .zero).toInt * 3 ^ i)).sum) ∧
  tritValue (List.replicate 243 .zero) = 0 ∧
  ∀ ts : List Trit, tritValue (ts.map Trit.negate) = -tritValue ts

/-- 41_base_conversion.md R121: the range of the value of a chunk, and what its top trit says about it. -/
def Obligations.TritValueRange : Prop :=
  (∀ ts : List Trit, ts.length = 243 →
    -((3 ^ 243 - 1) / 2) ≤ tritValue ts ∧ tritValue ts ≤ (3 ^ 243 - 1) / 2 ∧
    (ts[242]? = some .zero → -((3 ^ 242 - 1) / 2) ≤ tritValue ts ∧ tritValue ts ≤ (3 ^ 242 - 1) / 2) ∧
    (ts[242]? = some .pos → (3 ^ 242 + 1) / 2 ≤ tritValue ts) ∧
    (ts[242]? = some .neg → tritValue ts ≤ -((3 ^ 242 + 1) / 2))) ∧
  tritValue (List.replicate 243 .pos) = (3 ^ 243 - 1) / 2 ∧
  ((3 ^ 242 - 1) / 2 : Int) < 2 ^ 383 ∧
  (2 ^ 384 : Int) < 3 ^ 243 ∧ (2 ^ 383 : Int) < (3 ^ 243 - 1) / 2

/-- 41_base_conversion.md R123: the digit step, its equivalent form of the quotient, and the rule's examples. -/
def Obligations.DigitStep : Prop :=
  (∀ q : Int, q = (bal3 q).1.toInt + 3 * (bal3 q).2 ∧ (bal3 q).2 = (q + 1) / 3 ∧
    (q % 3 ≤ 1 → (bal3 q).1.toInt = q % 3) ∧ (q % 3 = 2 → (bal3 q).1.toInt = -1)) ∧
  bal3 5 = (.neg, 2) ∧ bal3 2 = (.neg, 1) ∧ bal3 1 = (.pos, 0) ∧ bal3 0 = (.zero, 0) ∧ bal3 (-1) = (.neg, 0) ∧
  bal3 (-2) = (.pos, -1) ∧ bal3 (-5) = (.pos, -2)

/-- 41_base_conversion.md R134: any digit procedure with `q = d + 3·q'` gives the digit step's answer, the truncated form
among them. -/
def Obligations.AnyDigitProcedureAgrees : Prop :=
  (∀ (q q' : Int) (d : Trit), q = d.toInt + 3 * q' → bal3 q = (d, q')) ∧
  ∀ q : Int,
    (q.tmod 3 = 2 → bal3 q = (.neg, q.tdiv 3 + 1)) ∧
    (q.tmod 3 = -2 → bal3 q = (.pos, q.tdiv 3 - 1)) ∧
    (q.tmod 3 ≠ 2 → q.tmod 3 ≠ -2 → (bal3 q).1.toInt = q.tmod 3 ∧ (bal3 q).2 = q.tdiv 3)

/-- 41_base_conversion.md R124: balanced ternary is unique, and the digit step computes it. -/
def Obligations.BalancedTernaryUnique : Prop :=
  ∀ n : Nat,
    (∀ v : Int, |v| ≤ (3 ^ n - 1) / 2 →
      (digits n v).2 = 0 ∧ (digits n v).1.length = n ∧ tritValue (digits n v).1 = v ∧
      ∀ ts : List Trit, ts.length = n → tritValue ts = v → ts = (digits n v).1) ∧
    (∀ v : Int, (3 ^ n - 1) / 2 < |v| →
      (digits n v).2 ≠ 0 ∧ ∀ ts : List Trit, ts.length = n → tritValue ts ≠ v) ∧
    ∀ ts : List Trit, ts.length = n → |tritValue ts| ≤ (3 ^ n - 1) / 2

/-- 41_base_conversion.md R129: `bytesToTrits` is total and injective, its image is the set of chunks whose value fits
384 bits, `tritsToBytes` is its inverse there, and `tritsToBytes` is not total. -/
def Obligations.ConverterBijection : Prop :=
  (∀ b : Block, ∃ ts, bytesToTrits b = .ok ts ∧ ts.length = 243 ∧ tritValue ts = blockValue b) ∧
  (∀ (b b' : Block) (ts : List Trit), bytesToTrits b = .ok ts → bytesToTrits b' = .ok ts → b = b') ∧
  (∀ ts : List Trit, ts.length = 243 →
    ((∃ b, bytesToTrits b = .ok ts) ↔ -(2 ^ 383) ≤ tritValue ts ∧ tritValue ts ≤ 2 ^ 383 - 1)) ∧
  (∀ (b : Block) (ts : List Trit), bytesToTrits b = .ok ts → tritsToBytes ts = .ok b) ∧
  (2 ^ 384 : Nat) < 3 ^ 243 ∧
  ∃ ts : List Trit, ts.length = 243 ∧ tritsToBytes ts = .error .overflow

/-- 41_base_conversion.md R127: where `Overflow` can occur: never in `bytesToTrits`; in `tritsToBytes` on the rule's three
examples and on no chunk with top trit 0; never inside ABSORB or SQUEEZE. -/
def Obligations.OverflowReachability : Prop :=
  (∀ (b : Block) (e : ErrCode), bytesToTrits b ≠ .error e) ∧
  tritsToBytes (List.replicate 243 .pos) = .error .overflow ∧
  tritsToBytes (List.replicate 242 .zero ++ [.pos]) = .error .overflow ∧
  tritsToBytes (digits 243 (2 ^ 383)).1 = .error .overflow ∧
  (∀ ts : List Trit, ts.length = 243 → ts[242]? = some .zero → ∃ b, tritsToBytes ts = .ok b) ∧
  ∀ (a : Nat) (n : Int) (s t : State),
    (exec (.absorb a n) s = .next t → t.err ≠ .overflow) ∧ (exec (.squeeze a n) s = .next t → t.err ≠ .overflow)

/-- 41_base_conversion.md R128: the round trips of the converter, the fill symmetry, and negation. -/
def Obligations.ConverterRoundTrips : Prop :=
  (∀ b : Block, ∃ ts, bytesToTrits b = .ok ts ∧ tritsToBytes ts = .ok b) ∧
  (∀ (ts : List Trit) (b : Block), ts.length = 243 → tritsToBytes ts = .ok b → bytesToTrits b = .ok ts) ∧
  (∀ ts : List Trit, ts.length = 243 → ts[242]? = some .zero →
    ∃ b, tritsToBytes ts = .ok b ∧ bytesToTrits b = .ok ts) ∧
  (∀ f : Byte, ∃ ts, bytesToTrits (blockOfBytes (List.replicate 48 f)) = .ok ts ∧
    tritsToBytes ts = .ok (blockOfBytes (List.replicate 48 f))) ∧
  ∀ (ts : List Trit) (b : Block), ts.length = 243 → tritsToBytes ts = .ok b → blockValue b ≠ -(2 ^ 383) →
    tritsToBytes (ts.map Trit.negate) = .ok (render (-blockValue b)) ∧ render (-blockValue b) = ~~~b + 1

/-- 30_encoding.md R78: the 27 characters of the alphabet in their order, the value of each position, and the position of
each value. -/
def Obligations.AlphabetValues : Prop :=
  tryteTable.map (fun row => Char.ofNat row.1.toNat) = "9ABCDEFGHIJKLMNOPQRSTUVWXYZ".toList ∧
  (∀ pos : Nat, pos < 27 → ∃ t0 t1 t2, tryteTable[pos]? = some (symbolAt pos, t0, t1, t2) ∧
    tripleValue t0 t1 t2 = if pos ≤ 13 then (pos : Int) else (pos : Int) - 27) ∧
  ∀ k : Nat, k < 27 → ∃ t0 t1 t2, symToTriple (symbolAt (((k : Int) - 13) % 27).toNat) = some (t0, t1, t2) ∧
    tripleValue t0 t1 t2 = (k : Int) - 13

/-- 40_tryte_lookup.md R102: the two lookup tables are inverse, and exactly 229 codes are invalid. -/
def Obligations.LookupTablesInverse : Prop :=
  (∀ (c : Byte) (t0 t1 t2 : Trit), symToTriple c = some (t0, t1, t2) → tripleToSym t0 t1 t2 = c) ∧
  (∀ t0 t1 t2 : Trit, symToTriple (tripleToSym t0 t1 t2) = some (t0, t1, t2)) ∧
  ((List.range 256).filter (fun c => (symToTriple (BitVec.ofNat 8 c)).isNone)).length = 229

/-- 30_encoding.md R80: each triple has exactly one symbol, and negating the trits pairs the symbols up from the two ends
of the alphabet, `9` with itself. -/
def Obligations.NegationPairsSymbols : Prop :=
  (∀ t0 t1 t2 : Trit, ∃! c : Byte, symToTriple c = some (t0, t1, t2)) ∧
  (∀ t0 t1 t2 : Trit, tripleValue t0.negate t1.negate t2.negate = -tripleValue t0 t1 t2) ∧
  ∀ pos, pos < 27 →
    symToTriple (symbolAt ((27 - pos) % 27)) =
      (symToTriple (symbolAt pos)).map (fun t => (t.1.negate, t.2.1.negate, t.2.2.negate))

/-- 40_tryte_lookup.md R103: the round trips of tryte strings and trit sequences, and the length law. -/
def Obligations.TryteStringsRoundTrip : Prop :=
  (∀ (cs : List Byte) (ts : List Trit), trytesToTrits cs = .ok ts →
    ts.length = 3 * cs.length ∧ tritsToTrytes ts = .ok cs) ∧
  ∀ ts : List Trit, ts.length % 3 = 0 → ∃ cs, tritsToTrytes ts = .ok cs ∧ trytesToTrits cs = .ok ts

/-- 10_state.md R39: NEW re-creates the engine and nothing else; only a hardware reset makes a cell's contents
unspecified, no command does. -/
def Obligations.NewRecreatesOnlyTheEngine : Prop :=
  (∀ s : State, exec .new s = .next { s with ctx := [], phase := .fresh, err := .ok }) ∧
  ∀ (i : Instr) (s t : State), exec i s = .next t →
    (∀ a, s.tmem.read a ≠ none → t.tmem.read a ≠ none) ∧
    (∀ a, s.ymem.read a ≠ none → t.ymem.read a ≠ none) ∧
    (∀ j, s.buf.read j ≠ none → t.buf.read j ≠ none)

/-- 42_sponge.md R152, R153 and R155, with the masking of R154 (90_conflicts.md C3): what ABSORB of `k` chunks does, and that it does nothing else.
The value of a masked chunk is that of its first 242 trits. -/
def Obligations.AbsorbFeedsChunksInOrder : Prop :=
  ∀ (s : State) (a k : Nat) (ts : List Trit), 0 < k → ts.length = 243 * k → a + 243 * k ≤ Config.params.sizeT →
    s.phase ≠ .squeezing → HoldsTrits s.tmem a ts →
    exec (.absorb a (243 * k)) s =
      .next { s with
        ctx := s.ctx ++ (List.range k).map (fun j => render (tritValue ((ts.drop (243 * j)).take 242)))
        phase := .absorbing
        err := .ok }

/-- 42_sponge.md R154 and 70_reset_and_hazards.md R248: inputs that differ only in top trits are absorbed identically. -/
def Obligations.AbsorbIgnoresTopTrits : Prop :=
  ∀ (s s' : State) (a k : Nat) (ts ts' : List Trit), 0 < k → a + 243 * k ≤ Config.params.sizeT →
    ts.length = 243 * k → ts'.length = 243 * k → (∀ i, i % 243 ≠ 242 → ts[i]? = ts'[i]?) →
    HoldsTrits s.tmem a ts → HoldsTrits s'.tmem a ts' →
    s.phase ≠ .squeezing → s'.phase ≠ .squeezing → s.ctx = s'.ctx →
    ∃ c, exec (.absorb a (243 * k)) s = .next { s with ctx := c, phase := .absorbing, err := .ok } ∧
      exec (.absorb a (243 * k)) s' = .next { s' with ctx := c, phase := .absorbing, err := .ok }

/-- 42_sponge.md R169: one ABSORB of `m + n` chunks and two ABSORBs of `m` and `n` chunks are the same, in every state
(refusals too), where the range is inside TMEM. The rule speaks of `CTX`, `PHASE` and `ERR`; that the reasons of refusals are
the same too rests, in a state where some cell holds the pattern `10`, on the model's choice of the reason of the lowest
cell that cannot be read (DESIGN CHOICE, log entry 6). -/
def Obligations.AbsorbSplits : Prop :=
  ∀ (p : Params) (s : State) (a m n : Nat), 1 ≤ m → 1 ≤ n → a + 243 * (m + n) ≤ p.sizeT →
    commandWith p (.absorb a (243 * (m + n : Nat))) s =
      andThen (commandWith p (.absorb a (243 * m)) s) (commandWith p (.absorb (a + 243 * m) (243 * n)))

/-- 42_sponge.md R157: a length ≤ 0 or no multiple of 243 is `InvalidInput`, whatever the range and the phase, and nothing
else changes. -/
def Obligations.AbsorbRejectsBadLength : Prop :=
  ∀ (s : State) (a : Nat) (n : Int), n ≤ 0 ∨ n % 243 ≠ 0 →
    exec (.absorb a n) s = .next { s with err := .invalidInput }

/-- 42_sponge.md R164: ABSORB in phase SQUEEZING is refused, after the length and range checks. -/
def Obligations.AbsorbAfterSqueezeRefused : Prop :=
  ∀ (s : State) (a : Nat) (n : Int), s.phase = .squeezing →
    (¬lengthFails (.absorb a n) → ¬rangeFails Config.params (.absorb a n) →
      exec (.absorb a n) s = .refused .absorbAfterSqueeze) ∧
    (lengthFails (.absorb a n) → exec (.absorb a n) s = .next { s with err := .invalidInput }) ∧
    (¬lengthFails (.absorb a n) → rangeFails Config.params (.absorb a n) →
      exec (.absorb a n) s = .next { s with err := .badRange })

/-- 42_sponge.md R168: a length ≤ 0 is `InvalidInput`; a positive length that is no multiple of 243 is rejected with
nothing else changed (which code it gives is left alone, 93_implementation_defined.md U2). -/
def Obligations.SqueezeRejectsBadLength : Prop :=
  ∀ (s : State) (a : Nat) (n : Int),
    (n ≤ 0 → exec (.squeeze a n) s = .next { s with err := .invalidInput }) ∧
    (0 < n → n % 243 ≠ 0 → ∃ e, e ≠ ErrCode.ok ∧ exec (.squeeze a n) s = .next { s with err := e })

/-- 42_sponge.md R159, with the digests of R163 and the policy of R162: what SQUEEZE of `k` chunks does, and that it does
nothing else; it completes in every phase and reads no cell. That it is executed in phase FRESH too is the spec's decision in R165, which
allows a model to refuse it (93_implementation_defined.md U3; DESIGN CHOICE, log entry 9). -/
def Obligations.SqueezeWritesDigestsInOrder : Prop :=
  ∀ (s : State) (a k : Nat), 0 < k → a + 243 * k ≤ Config.params.sizeT →
    ∃ m, exec (.squeeze a (243 * k)) s =
        .next { s with
          ctx := [~~~(nthDigest Config.params s.ctx (k - 1))]
          tmem := m
          phase := .squeezing
          err := .ok } ∧
      (∀ j, j < k → ∃ ts, bytesToTrits (nthDigest Config.params s.ctx j) = .ok ts ∧
        ∀ i, i < 243 → m.read (a + 243 * j + i) =
          if i = 242 ∧ Config.params.squeezeTop = .forcedZero then some (Trit.zero).pattern
          else (ts[i]?).map Trit.pattern) ∧
      ∀ c, c < a ∨ a + 243 * k ≤ c → m.read c = s.tmem.read c

/-- 42_sponge.md R161: the reseed is the complement of every byte of the digest, minus its value minus one as an integer,
and after a chunk it is the only block of the context, whatever the policy for the top trit. The last clause holds in every
phase, FRESH too (R165, 93_implementation_defined.md U3; DESIGN CHOICE, log entry 9). -/
def Obligations.ReseedComplementsDigest : Prop :=
  (∀ (d : Block) (j : Nat), j < 48 → blockByte (invertBlock d) j = ~~~(blockByte d j)) ∧
  (∀ d : Block, blockValue (invertBlock d) = -blockValue d - 1) ∧
  ∀ (p : Params) (a : Nat) (s : State), a + 243 ≤ p.sizeT →
    ∃ t, squeezeWith p a 243 s = .next t ∧ t.ctx = [invertBlock (p.hash s.ctx)]

/-- 42_sponge.md R170: one SQUEEZE of `m + n` chunks and two SQUEEZEs of `m` and `n` chunks are the same, where the range
is inside TMEM. -/
def Obligations.SqueezeSplits : Prop :=
  ∀ (p : Params) (s : State) (a m n : Nat), 1 ≤ m → 1 ≤ n → a + 243 * (m + n) ≤ p.sizeT →
    commandWith p (.squeeze a (243 * (m + n : Nat))) s =
      andThen (commandWith p (.squeeze a (243 * m)) s) (commandWith p (.squeeze (a + 243 * m) (243 * n)))

/-- 42_sponge.md R162: the policy decides cell `A + 243k + 242` of each squeezed chunk and nothing else; as converted, the
top trit is nonzero exactly when the digest's value is beyond `TMAX242` in magnitude. That SQUEEZE completes in every phase,
FRESH too, rests on R165 (93_implementation_defined.md U3; DESIGN CHOICE, log entry 9). -/
def Obligations.TopPolicyDecidesOnlyTopTrits : Prop :=
  (∀ (p p' : Params) (s : State) (a k : Nat), p'.hash = p.hash → p'.sizeT = p.sizeT →
    p.squeezeTop = .asConverted → p'.squeezeTop = .forcedZero → 0 < k → a + 243 * k ≤ p.sizeT →
    ∃ m m' c,
      squeezeWith p a (243 * k) s = .next { s with ctx := c, tmem := m, phase := .squeezing, err := .ok } ∧
      squeezeWith p' a (243 * k) s = .next { s with ctx := c, tmem := m', phase := .squeezing, err := .ok } ∧
      (∀ x, (∀ j, j < k → x ≠ a + 243 * j + 242) → m'.read x = m.read x) ∧
      ∀ j, j < k → m'.read (a + 243 * j + 242) = some 0b00#2 ∧
        (m.read (a + 243 * j + 242) ≠ some 0b00#2 ↔ (3 ^ 242 - 1) / 2 < |blockValue (nthDigest p s.ctx j)|)) ∧
  ∀ (b : Block) (ts : List Trit), bytesToTrits b = .ok ts →
    (ts[242]? ≠ some .zero ↔ (3 ^ 242 - 1) / 2 < |blockValue b|)

/-- 42_sponge.md R165 and the example of R151: a SQUEEZE right after NEW takes the digest of the empty context. The source
never exercises the case; that it is executed is the spec's decision (93_implementation_defined.md U3, log entry 9). -/
def Obligations.FreshSqueezeUsesEmptyContext : Prop :=
  ∀ (s : State) (a : Nat), a + 243 ≤ Config.params.sizeT →
    ∃ m ts, bytesToTrits (Config.params.hash []) = .ok ts ∧
      andThen (exec .new s) (exec (.squeeze a 243)) =
        .next { s with ctx := [~~~(Config.params.hash [])], tmem := m, phase := .squeezing, err := .ok } ∧
      ∀ i, i < 242 → m.read (a + i) = (ts[i]?).map Trit.pattern

/-- 42_sponge.md R166: two fresh engines that absorb identical input and squeeze identical length produce identical
output, whatever else their states hold, wherever the input and output lie, and whatever the top trits of the input. -/
def Obligations.HashIsDeterministic : Prop :=
  ∀ (s s' : State) (a a' o o' k l : Nat) (ts ts' : List Trit), 0 < k → 0 < l →
    a + 243 * k ≤ Config.params.sizeT → a' + 243 * k ≤ Config.params.sizeT →
    o + 243 * l ≤ Config.params.sizeT → o' + 243 * l ≤ Config.params.sizeT →
    ts.length = 243 * k → ts'.length = 243 * k → (∀ i, i % 243 ≠ 242 → ts[i]? = ts'[i]?) →
    HoldsTrits s.tmem a ts → HoldsTrits s'.tmem a' ts' →
    ∃ t t',
      andThen (andThen (exec .new s) (exec (.absorb a (243 * k)))) (exec (.squeeze o (243 * l))) = .next t ∧
      andThen (andThen (exec .new s') (exec (.absorb a' (243 * k)))) (exec (.squeeze o' (243 * l))) = .next t' ∧
      t.ctx = t'.ctx ∧ t.phase = t'.phase ∧ t.err = t'.err ∧
      ∀ i, i < 243 * l → t.tmem.read (o + i) = t'.tmem.read (o' + i)

/-- 40_tryte_lookup.md R104: what Y2T does on symbols of the alphabet, and that it does nothing else; `N` = 0 is among the
cases. -/
def Obligations.Y2tWritesTriples : Prop :=
  ∀ (s : State) (a b : Nat) (cs : List Byte), b + cs.length ≤ Config.params.sizeY →
    a + 3 * cs.length ≤ Config.params.sizeT → HoldsCells s.ymem b cs → (∀ c ∈ cs, symToTriple c ≠ none) →
    ∃ m, exec (.y2t a b cs.length) s = .next { s with tmem := m, err := .ok } ∧
      (∀ j (h : j < cs.length), ∃ t0 t1 t2, symToTriple cs[j] = some (t0, t1, t2) ∧
        m.read (a + 3 * j) = some t0.pattern ∧ m.read (a + 3 * j + 1) = some t1.pattern ∧
        m.read (a + 3 * j + 2) = some t2.pattern) ∧
      ∀ c, c < a ∨ a + 3 * cs.length ≤ c → m.read c = s.tmem.read c

/-- 60_exceptions.md R212: Y2T raises `InvalidSymbol` exactly when some cell of its range, all of them written, holds a
code outside the alphabet; then nothing but `ERR` changes. -/
def Obligations.Y2tInvalidSymbol : Prop :=
  (∀ (p : Params) (s : State) (a b : Nat) (cs : List Byte), b + cs.length ≤ p.sizeY →
    a + 3 * cs.length ≤ p.sizeT → HoldsCells s.ymem b cs → (∃ c ∈ cs, symToTriple c = none) →
    commandWith p (.y2t a b cs.length) s = .next { s with err := .invalidSymbol }) ∧
  ∀ (p : Params) (i : Instr) (s t : State), commandWith p i s = .next t → t.err = .invalidSymbol →
    ∃ a b n x c, i = .y2t a b n ∧ b ≤ x ∧ (x : Int) < b + n ∧ s.ymem.read x = some c ∧ symToTriple c = none

/-- 40_tryte_lookup.md R105: what T2Y does, and that it does nothing else; `N` = 0 is among the cases. -/
def Obligations.T2yWritesSymbols : Prop :=
  ∀ (s : State) (a b : Nat) (ts : List Trit), ts.length % 3 = 0 → a + ts.length ≤ Config.params.sizeT →
    b + ts.length / 3 ≤ Config.params.sizeY → HoldsTrits s.tmem a ts →
    ∃ m, exec (.t2y a b ts.length) s = .next { s with ymem := m, err := .ok } ∧
      (∀ j, j < ts.length / 3 → ∃ t0 t1 t2, ts[3 * j]? = some t0 ∧ ts[3 * j + 1]? = some t1 ∧
        ts[3 * j + 2]? = some t2 ∧
        m.read (b + j) = some (symbolAt ((t0.toInt + 3 * t1.toInt + 9 * t2.toInt) % 27).toNat)) ∧
      ∀ c, c < b ∨ b + ts.length / 3 ≤ c → m.read c = s.ymem.read c

/-- 60_exceptions.md R213: T2Y raises `InvalidLength` exactly when `N mod 3 ≠ 0`, in every state, and no other command
raises it. -/
def Obligations.T2yInvalidLength : Prop :=
  (∀ (s : State) (a b : Nat) (n : Int), n % 3 ≠ 0 →
    exec (.t2y a b n) s = .next { s with err := .invalidLength }) ∧
  ∀ (i : Instr) (s t : State), exec i s = .next t → t.err = .invalidLength →
    ∃ a b n, i = .t2y a b n ∧ n % 3 ≠ 0

/-- 41_base_conversion.md R132: what T2B does on a chunk whose value fits, and that it does nothing else; where the value
does not fit, `Overflow` with BUF unchanged (60_exceptions.md R214). -/
def Obligations.T2bConvertsChunk : Prop :=
  ∀ (s : State) (a : Nat) (ts : List Trit), a + 243 ≤ Config.params.sizeT → ts.length = 243 →
    HoldsTrits s.tmem a ts →
    (-(2 ^ 383) ≤ tritValue ts ∧ tritValue ts ≤ 2 ^ 383 - 1 →
      ∃ m, exec (.t2b a) s = .next { s with buf := m, err := .ok } ∧
        (∀ j, j < 48 → ∃ v : Byte, m.read j = some v ∧
          (v.toNat : Int) = tritValue ts % 2 ^ 384 / 256 ^ (47 - j) % 256) ∧
        ∀ j, 48 ≤ j → m.read j = s.buf.read j) ∧
    (tritValue ts < -(2 ^ 383) ∨ 2 ^ 383 - 1 < tritValue ts →
      exec (.t2b a) s = .next { s with err := .overflow })

/-- 41_base_conversion.md R133: what B2T does, and that it does nothing else. -/
def Obligations.B2tConvertsBuf : Prop :=
  ∀ (s : State) (a : Nat) (bs : List Byte), a + 243 ≤ Config.params.sizeT → bs.length = 48 →
    HoldsCells s.buf 0 bs →
    ∃ m ts, exec (.b2t a) s = .next { s with tmem := m, err := .ok } ∧ ts.length = 243 ∧
      tritValue ts = ((List.range 48).map (fun j => ((bs.getD j 0).toNat : Int) * 256 ^ (47 - j))).sum -
        (if (bs.getD 0 0).getLsbD 7 then 2 ^ 384 else 0) ∧
      HoldsTrits m a ts ∧ ∀ c, c < a ∨ a + 243 ≤ c → m.read c = s.tmem.read c

/-- The commands B2T and T2B in sequence give every byte of BUF back (41_base_conversion.md R128, R132, R133). -/
def Obligations.B2tThenT2bRestoresBuf : Prop :=
  ∀ (s : State) (a : Nat) (bs : List Byte), a + 243 ≤ Config.params.sizeT → bs.length = 48 →
    HoldsCells s.buf 0 bs →
    ∃ m m', andThen (exec (.b2t a) s) (exec (.t2b a)) = .next { s with tmem := m, buf := m', err := .ok } ∧
      ∀ j, m'.read j = s.buf.read j

/-- The commands Y2T and T2Y in sequence copy a valid tryte string (40_tryte_lookup.md R103, R104, R105). -/
def Obligations.Y2tThenT2yCopiesString : Prop :=
  ∀ (p : Params) (s : State) (a b b' : Nat) (cs : List Byte), b + cs.length ≤ p.sizeY →
    b' + cs.length ≤ p.sizeY → a + 3 * cs.length ≤ p.sizeT →
    HoldsCells s.ymem b cs → (∀ c ∈ cs, symToTriple c ≠ none) →
    ∃ m m', andThen (commandWith p (.y2t a b cs.length) s) (commandWith p (.t2y a b' (3 * cs.length))) =
        .next { s with tmem := m, ymem := m', err := .ok } ∧
      HoldsCells m' b' cs ∧ ∀ c, c < b' ∨ b' + cs.length ≤ c → m'.read c = s.ymem.read c

/-- 60_exceptions.md R216: `BadRange` exactly when the rule's table says so, and then nothing but `ERR` changes. -/
def Obligations.BadRangeTable : Prop :=
  (∀ (i : Instr) (s : State), ¬lengthFails i → rangeFails Config.params i →
    exec i s = .next { s with err := .badRange }) ∧
  ∀ (i : Instr) (s t : State), exec i s = .next t → t.err = .badRange →
    ¬lengthFails i ∧ rangeFails Config.params i

/-- 20_memory.md R67: a command whose length, range and phase are right and which would read an unwritten cell is refused,
before any content is judged. That TMEM holds nothing but trits is an invariant (StepKeepsMemoriesSound). -/
def Obligations.UnwrittenCellRefused : Prop :=
  ∀ (p : Params) (i : Instr) (s : State), allTrits s.tmem → ¬lengthFails i → ¬rangeFails p i →
    ((∃ a n x, i = .absorb a n ∧ s.phase ≠ .squeezing ∧ a ≤ x ∧ (x : Int) < a + n ∧ s.tmem.read x = none) ∨
      (∃ a b n x, i = .t2y a b n ∧ a ≤ x ∧ (x : Int) < a + n ∧ s.tmem.read x = none) ∨
      (∃ a x, i = .t2b a ∧ a ≤ x ∧ x < a + 243 ∧ s.tmem.read x = none) ∨
      (∃ a b n x, i = .y2t a b n ∧ b ≤ x ∧ (x : Int) < b + n ∧ s.ymem.read x = none) ∨
      (∃ a j, i = .b2t a ∧ j < 48 ∧ s.buf.read j = none)) →
    commandWith p i s = .refused .unwrittenCell

/-- 60_exceptions.md R219: a command that ends with an error has changed nothing but `ERR`. -/
def Obligations.ErrorChangesOnlyErr : Prop :=
  ∀ (i : Instr) (s t : State), exec i s = .next t → t.err ≠ .ok → t = { s with err := t.err }

/-- 60_exceptions.md R217: no command ends with a code, or is refused for a reason, that the rule's table does not give
it. That SQUEEZE answers a positive length that is no multiple of 243 with `InvalidInput` is the resolution of
90_conflicts.md C4 (93_implementation_defined.md U2). -/
def Obligations.OutcomesOfTheTable : Prop :=
  ∀ (i : Instr) (s : State),
    (∀ t, exec i s = .next t → mayEndWith i t.err = true) ∧
    (∀ r, exec i s = .refused r → mayBeRefusedFor i r = true)

/-- 20_memory.md R58 and 10_state.md R22, R25: which command can change which state. -/
def Obligations.CommandFootprints : Prop :=
  ∀ (i : Instr) (s t : State), exec i s = .next t →
    (t.buf ≠ s.buf → ∃ a, i = .t2b a) ∧
    (t.ymem ≠ s.ymem → ∃ a b n, i = .t2y a b n) ∧
    (t.tmem ≠ s.tmem → (∃ a n, i = .squeeze a n) ∨ (∃ a b n, i = .y2t a b n) ∨ ∃ a, i = .b2t a) ∧
    (t.ctx ≠ s.ctx ∨ t.phase ≠ s.phase → i = .new ∨ (∃ a n, i = .absorb a n) ∨ ∃ a n, i = .squeeze a n) ∧
    t.refused = s.refused ∧ t.pending = s.pending ∧ t.response = s.response

/-- 10_state.md R25: only SQUEEZE makes anything computed from `CTX` visible: of every other command, the outcome on two
states that differ in `CTX` alone is the same but for `CTX`. -/
def Obligations.OnlySqueezeRevealsCtx : Prop :=
  ∀ (i : Instr) (s : State) (c : List Block), (∀ a n, i ≠ .squeeze a n) →
    (∀ r, exec i s = .refused r ↔ exec i { s with ctx := c } = .refused r) ∧
    ∀ t, exec i s = .next t → ∃ c', exec i { s with ctx := c } = .next { t with ctx := c' }

/-- 10_state.md R26: the transitions of `PHASE`. -/
def Obligations.PhaseTransitions : Prop :=
  ∀ (i : Instr) (s t : State), exec i s = .next t →
    (t.err ≠ .ok → t.phase = s.phase) ∧
    (t.err = .ok →
      (i = .new → t.phase = .fresh) ∧
      (∀ a n, i = .absorb a n → t.phase = .absorbing) ∧
      (∀ a n, i = .squeeze a n → t.phase = .squeezing) ∧
      (i ≠ .new → (∀ a n, i ≠ .absorb a n) → (∀ a n, i ≠ .squeeze a n) → t.phase = s.phase))

/-- 10_state.md R41 with 20_memory.md R62: what the host writes to a cell it reads back from that cell, and no other cell
and no other state has changed. -/
def Obligations.HostReadsBackWhatItWrote : Prop :=
  ∀ (p : Params) (s : State) (a : Nat),
    (∀ t : Trit, a < p.sizeT →
      ∃ m, andThen (hostWriteT p a t s) (hostReadT p a) = .next { s with tmem := m, response := some (.trit t) } ∧
        ∀ c, c ≠ a → m.read c = s.tmem.read c) ∧
    (∀ v : Byte, a < p.sizeY →
      ∃ m, andThen (hostWriteY p a v s) (hostReadY p a) = .next { s with ymem := m, response := some (.symbol v) } ∧
        ∀ c, c ≠ a → m.read c = s.ymem.read c) ∧
    ∀ v : Byte, a < 48 →
      ∃ m, andThen (hostWriteBuf a v s) (hostReadBuf a) = .next { s with buf := m, response := some (.byte v) } ∧
        ∀ c, c ≠ a → m.read c = s.buf.read c

/-- 10_state.md R40, R41 and 60_exceptions.md R222: a host action outside its memory is refused, and so is a host read of a
cell nothing has written. -/
def Obligations.HostActionsRefused : Prop :=
  ∀ (p : Params) (s : State) (a : Nat),
    (p.sizeT ≤ a → hostReadT p a s = .refused .hostIndexOutOfRange ∧
      ∀ t, hostWriteT p a t s = .refused .hostIndexOutOfRange) ∧
    (p.sizeY ≤ a → hostReadY p a s = .refused .hostIndexOutOfRange ∧
      ∀ v, hostWriteY p a v s = .refused .hostIndexOutOfRange) ∧
    (48 ≤ a → hostReadBuf a s = .refused .hostIndexOutOfRange ∧
      ∀ v, hostWriteBuf a v s = .refused .hostIndexOutOfRange) ∧
    (a < p.sizeT → s.tmem.read a = none → hostReadT p a s = .refused .unwrittenCell) ∧
    (a < p.sizeY → s.ymem.read a = none → hostReadY p a s = .refused .unwrittenCell) ∧
    (a < 48 → s.buf.read a = none → hostReadBuf a s = .refused .unwrittenCell)

/-- 20_memory.md R60: a host read changes nothing but the value handed to the host. -/
def Obligations.HostReadsChangeNothing : Prop :=
  ∀ (s t : State) (act : HostAction) (rest : List Event), s.pending = .host act :: rest →
    ((∃ a, act = .readT a) ∨ (∃ b, act = .readY b) ∨ (∃ j, act = .readBuf j) ∨ act = .readStatus) →
    step s = .next t → t = { s with pending := rest, response := t.response }

/-- After 20_memory.md R64 and 60_exceptions.md R231, instances share no state: whatever the order in which instances step,
each one is where its own steps alone take it. It is a fact about the model's form for several instances, which rests on log
entry 13 (DESIGN CHOICE): a list of states, a schedule for instances that run at the same time, and a refused instance that
keeps its own mark while the others go on. -/
def Obligations.InstancesShareNoState : Prop :=
  ∀ (schedule : List Nat) (ms : List State) (j : Nat),
    (runInstances schedule ms)[j]? = ms[j]?.map advanceInstance^[schedule.count j]
end

