-- ==== Sys2Proof/Laws/Memory.lean ====
section
/-! SUPPORT. What reading and writing cells does: a read after a write, and that every operation keeps the canonical
form. -/

namespace Sys2Proof.Machine

variable {w : Nat}

@[simp] theorem Memory.read_nil (a : Nat) : Memory.read ([] : Memory w) a = none := rfl

theorem Memory.read_cons (b : Nat) (v : BitVec w) (m : Memory w) (a : Nat) :
    Memory.read ((b, v) :: m) a = if b = a then some v else m.read a := rfl

/-- A cell reads what was written to it last, and every other cell what it read before. -/
theorem Memory.read_write (m : Memory w) (a : Nat) (v : BitVec w) (c : Nat) :
    (m.write a v).read c = if c = a then some v else m.read c := by
  induction m with
  | nil => simp [Memory.write, Memory.read, eq_comm]
  | cons x m ih =>
    obtain ⟨b, u⟩ := x
    simp only [Memory.write]
    split
    · simp only [Memory.read_cons]
      split_ifs <;> first | rfl | omega
    · split
      · simp only [Memory.read_cons]
        split_ifs <;> first | rfl | omega
      · simp only [Memory.read_cons, ih]
        split_ifs <;> first | rfl | omega

/-- Every listed index is at least `a`. -/
def Memory.above (m : Memory w) (a : Nat) : Prop := ∀ x ∈ m, a < x.1

theorem Memory.wf_cons (x : Nat × BitVec w) (m : Memory w) :
    Memory.wf (x :: m) = true ↔ Memory.above m x.1 ∧ m.wf = true := by
  induction m generalizing x with
  | nil => simp [Memory.wf, Memory.above]
  | cons y m ih =>
    obtain ⟨a, u⟩ := x
    obtain ⟨b, v⟩ := y
    simp only [Memory.wf, Bool.and_eq_true, decide_eq_true_eq, ih (b, v), Memory.above, List.mem_cons,
      forall_eq_or_imp]
    constructor
    · rintro ⟨hab, hm, hwf⟩
      exact ⟨⟨hab, fun z hz => lt_trans hab (hm z hz)⟩, hm, hwf⟩
    · rintro ⟨⟨hab, -⟩, hm, hwf⟩
      exact ⟨hab, hm, hwf⟩

theorem Memory.above_write (m : Memory w) (k a : Nat) (v : BitVec w) (hk : k < a) (h : m.above k) :
    (m.write a v).above k := by
  induction m with
  | nil => simpa [Memory.write, Memory.above] using hk
  | cons x m ih =>
    obtain ⟨b, u⟩ := x
    simp only [Memory.above, List.mem_cons, forall_eq_or_imp] at h
    simp only [Memory.write]
    split
    · simpa [Memory.above] using ⟨hk, h.1, fun a b hb => h.2 (a, b) hb⟩
    · split
      · simpa [Memory.above] using ⟨hk, fun a b hb => h.2 (a, b) hb⟩
      · simp only [Memory.above, List.mem_cons, forall_eq_or_imp]
        exact ⟨h.1, ih h.2⟩

/-- A write keeps the canonical form. -/
theorem Memory.wf_write (m : Memory w) (a : Nat) (v : BitVec w) (h : m.wf = true) : (m.write a v).wf = true := by
  induction m with
  | nil => rfl
  | cons x m ih =>
    obtain ⟨b, u⟩ := x
    have hb := (Memory.wf_cons _ _).1 h
    simp only [Memory.write]
    split
    · rename_i hab
      refine (Memory.wf_cons _ _).2 ⟨?_, h⟩
      intro y hy
      rcases List.mem_cons.1 hy with rfl | hy
      · exact hab
      · exact lt_trans hab (hb.1 y hy)
    · split
      · rename_i hab
        exact (Memory.wf_cons _ _).2 ⟨by simpa [hab] using hb.1, hb.2⟩
      · exact (Memory.wf_cons _ _).2 ⟨Memory.above_write m b a v (by omega) hb.1, ih hb.2⟩

/-- Writing a list of contents keeps the canonical form. -/
theorem Memory.wf_writeCells (m : Memory w) (a : Nat) (vs : List (BitVec w)) (h : m.wf = true) :
    (m.writeCells a vs).wf = true := by
  induction vs generalizing m a with
  | nil => exact h
  | cons v vs ih => exact ih _ _ (Memory.wf_write m a v h)

/-- After a write of the list `vs` from `a` on, a cell of that range reads its element and every other cell what it read
before. -/
theorem Memory.read_writeCells (m : Memory w) (a : Nat) (vs : List (BitVec w)) (c : Nat) :
    (m.writeCells a vs).read c = if a ≤ c ∧ c < a + vs.length then vs[c - a]? else m.read c := by
  induction vs generalizing m a with
  | nil => simp [Memory.writeCells]
  | cons v vs ih =>
    simp only [Memory.writeCells, ih, Memory.read_write, List.length_cons]
    by_cases hc : c = a
    · subst hc
      simp
    · by_cases h : a + 1 ≤ c ∧ c < a + 1 + vs.length
      · rw [if_pos h, if_pos (by omega)]
        obtain ⟨d, rfl⟩ : ∃ d, c = a + 1 + d := ⟨c - (a + 1), by omega⟩
        rw [show a + 1 + d - a = d + 1 by omega, List.getElem?_cons_succ]
        congr 1
        omega
      · rw [if_neg h, if_neg hc, if_neg (by omega)]

/-- A write of a list followed by a write right after it is one write of the two lists in a row. -/
theorem Memory.writeCells_append (m : Memory w) (a : Nat) (us vs : List (BitVec w)) :
    m.writeCells a (us ++ vs) = (m.writeCells a us).writeCells (a + us.length) vs := by
  induction us generalizing m a with
  | nil => rfl
  | cons u us ih =>
    simp only [List.cons_append, Memory.writeCells, ih, List.length_cons]
    congr 1
    omega

/-- Reading a range answers its contents exactly when every cell of it has been written. -/
theorem Memory.readCells_ok_iff (m : Memory w) (a n : Nat) (vs : List (BitVec w)) :
    m.readCells a n = .ok vs ↔ vs.length = n ∧ ∀ i (h : i < vs.length), m.read (a + i) = some vs[i] := by
  induction n generalizing a vs with
  | zero =>
    simp only [Memory.readCells, Except.ok.injEq]
    constructor
    · rintro rfl
      simp
    · rintro ⟨h, -⟩
      exact (List.length_eq_zero_iff.1 h).symm
  | succ n ih =>
    simp only [Memory.readCells]
    cases hr : m.read a with
    | none =>
      simp only [reduceCtorEq, false_iff, not_and]
      intro hl h
      have := h 0 (by omega)
      simp [hr] at this
    | some u =>
      have key : ∀ vs' : List (BitVec w), (u :: vs' = vs ∧ m.readCells (a + 1) n = .ok vs') ↔
          (u :: vs' = vs ∧ vs.length = n + 1 ∧ ∀ i (h : i < vs.length), m.read (a + i) = some vs[i]) := by
        intro vs'
        refine and_congr_right ?_
        rintro rfl
        rw [ih]
        constructor
        · rintro ⟨hl, h⟩
          refine ⟨by simp [hl], ?_⟩
          intro i hi
          cases i with
          | zero => simpa using hr
          | succ i =>
            have := h i (by simpa using hi)
            simpa [show a + 1 + i = a + (i + 1) by omega] using this
        · rintro ⟨hl, h⟩
          refine ⟨by simpa using hl, ?_⟩
          intro i hi
          have := h (i + 1) (by simpa using hi)
          simpa [show a + 1 + i = a + (i + 1) by omega] using this
      cases hc : m.readCells (a + 1) n with
      | error e =>
        simp only [reduceCtorEq, false_iff]
        rintro ⟨hl, h⟩
        cases vs with
        | nil => simp at hl
        | cons x xs =>
          have hx : m.read a = some x := h 0 (Nat.succ_pos _)
          rw [hr] at hx
          obtain rfl := Option.some.inj hx
          have := ((key xs).2 ⟨rfl, hl, h⟩).2
          simp [hc] at this
      | ok us =>
        simp only [Except.ok.injEq]
        constructor
        · intro h
          exact ((key us).1 ⟨h, hc⟩).2
        · rintro ⟨hl, h⟩
          cases vs with
          | nil => simp at hl
          | cons x xs =>
            have hx : m.read a = some x := h 0 (Nat.succ_pos _)
            rw [hr] at hx
            obtain rfl := Option.some.inj hx
            have := ((key xs).2 ⟨rfl, hl, h⟩).2
            rw [hc] at this
            rw [Except.ok.inj this]

/-- Reading a range is refused only because some cell of it has not been written. -/
theorem Memory.readCells_error (m : Memory w) (a n : Nat) (r : Refusal) (h : m.readCells a n = .error r) :
    r = .unwrittenCell ∧ ∃ i, i < n ∧ m.read (a + i) = none := by
  induction n generalizing a with
  | zero => simp [Memory.readCells] at h
  | succ n ih =>
    simp only [Memory.readCells] at h
    cases hr : m.read a with
    | none =>
      rw [hr] at h
      exact ⟨by simpa using h.symm, 0, by omega, by simpa using hr⟩
    | some u =>
      rw [hr] at h
      cases hc : m.readCells (a + 1) n with
      | error e =>
        rw [hc] at h
        obtain ⟨he, i, hi, hn⟩ := ih (a + 1) (by simpa [hc] using h)
        exact ⟨he, i + 1, by omega, by rw [← hn]; congr 1; omega⟩
      | ok us => simp [hc] at h

/-- A pattern stands for a trit exactly when it is that trit's pattern. -/
theorem Trit.ofPattern_eq_some_iff (v : BitVec 2) (t : Trit) : Trit.ofPattern v = some t ↔ v = t.pattern := by
  cases t <;> revert v <;> decide

theorem Trit.ofPattern_eq_none_iff (v : BitVec 2) : Trit.ofPattern v = none ↔ v = 0b10#2 := by
  revert v
  decide

theorem Trit.pattern_ne_invalid (t : Trit) : t.pattern ≠ 0b10#2 := by
  cases t <;> decide

theorem Trit.pattern_injective (t u : Trit) (h : t.pattern = u.pattern) : t = u := by
  cases t <;> cases u <;> first | rfl | (exact absurd h (by decide))

/-- A cell reads as a trit exactly when it holds that trit's pattern. -/
theorem readTrit_ok_iff (m : Memory 2) (a : Nat) (t : Trit) :
    readTrit m a = .ok t ↔ m.read a = some t.pattern := by
  simp only [readTrit]
  cases m.read a with
  | none => simp
  | some v =>
    rw [Option.some.injEq, ← Trit.ofPattern_eq_some_iff]
    dsimp only
    cases Trit.ofPattern v <;> simp

/-- A trit read is refused for an unwritten cell, or for the pattern that is no trit. -/
theorem readTrit_error_iff (m : Memory 2) (a : Nat) (r : Refusal) :
    readTrit m a = .error r ↔
      (r = .unwrittenCell ∧ m.read a = none) ∨ (r = .notATrit ∧ m.read a = some 0b10#2) := by
  simp only [readTrit]
  cases hr : m.read a with
  | none => simp [eq_comm]
  | some v =>
    simp only [reduceCtorEq, and_false, false_or, Option.some.injEq]
    rw [← Trit.ofPattern_eq_none_iff]
    cases Trit.ofPattern v <;> simp [eq_comm]

/-- Reading a range of trits answers them exactly when every cell of it holds its trit. -/
theorem readTrits_ok_iff (m : Memory 2) (a n : Nat) (ts : List Trit) :
    readTrits m a n = .ok ts ↔
      ts.length = n ∧ ∀ i (h : i < ts.length), m.read (a + i) = some (ts[i]).pattern := by
  induction n generalizing a ts with
  | zero =>
    simp only [readTrits, Except.ok.injEq]
    constructor
    · rintro rfl
      simp
    · rintro ⟨h, -⟩
      exact (List.length_eq_zero_iff.1 h).symm
  | succ n ih =>
    simp only [readTrits]
    cases ts with
    | nil =>
      simp only [List.length_nil, Nat.right_eq_add, Nat.add_eq_zero_iff, Nat.succ_ne_self, and_false, false_and,
        iff_false]
      cases readTrit m a with
      | error e => simp
      | ok t => cases readTrits m (a + 1) n <;> simp
    | cons u us =>
      have step : (∀ i (h : i < (u :: us).length), m.read (a + i) = some ((u :: us)[i]).pattern) ↔
          m.read a = some u.pattern ∧ ∀ i (h : i < us.length), m.read (a + 1 + i) = some (us[i]).pattern := by
        constructor
        · intro h
          refine ⟨h 0 (Nat.succ_pos _), fun i hi => ?_⟩
          have := h (i + 1) (by simpa using hi)
          simpa [show a + 1 + i = a + (i + 1) by omega] using this
        · rintro ⟨h0, h⟩ i hi
          cases i with
          | zero => simpa using h0
          | succ i =>
            have := h i (by simpa using hi)
            simpa [show a + 1 + i = a + (i + 1) by omega] using this
      rw [step, ← readTrit_ok_iff]
      have hus := ih (a + 1) us
      simp only [List.length_cons, Nat.add_right_cancel_iff]
      cases hr : readTrit m a with
      | error e => simp
      | ok t =>
        cases hc : readTrits m (a + 1) n with
        | error e =>
          rw [hc] at hus
          simp only [reduceCtorEq, false_iff] at hus ⊢
          tauto
        | ok vs =>
          rw [hc] at hus
          simp only [Except.ok.injEq, List.cons.injEq] at hus ⊢
          rw [hus]
          tauto

/-- Reading a range of trits is refused because of a cell of it. -/
theorem readTrits_error (m : Memory 2) (a n : Nat) (r : Refusal) (h : readTrits m a n = .error r) :
    ∃ i, i < n ∧ ((r = .unwrittenCell ∧ m.read (a + i) = none) ∨ (r = .notATrit ∧ m.read (a + i) = some 0b10#2)) := by
  induction n generalizing a with
  | zero => simp [readTrits] at h
  | succ n ih =>
    simp only [readTrits] at h
    cases hr : readTrit m a with
    | error e =>
      rw [hr] at h
      obtain rfl : e = r := by simpa using h
      exact ⟨0, by omega, by simpa using (readTrit_error_iff m a e).1 hr⟩
    | ok t =>
      rw [hr] at h
      cases hc : readTrits m (a + 1) n with
      | error e =>
        rw [hc] at h
        obtain ⟨i, hi, hn⟩ := ih (a + 1) (by simpa [hc] using h)
        exact ⟨i + 1, by omega, by rwa [show a + (i + 1) = a + 1 + i by omega]⟩
      | ok us => simp [hc] at h

/-- Reading `n + k` trits is reading `n` and then the next `k`. -/
theorem readTrits_add (m : Memory 2) (a n k : Nat) :
    readTrits m a (n + k) =
      match readTrits m a n with
      | .error r => .error r
      | .ok ts =>
        match readTrits m (a + n) k with
        | .error r => .error r
        | .ok us => .ok (ts ++ us) := by
  induction n generalizing a with
  | zero =>
    simp only [Nat.zero_add, readTrits, Nat.add_zero]
    cases readTrits m a k <;> rfl
  | succ n ih =>
    rw [show n + 1 + k = n + k + 1 by omega]
    simp only [readTrits, ih (a + 1)]
    cases readTrit m a with
    | error e => rfl
    | ok t =>
      simp only
      cases readTrits m (a + 1) n with
      | error e => rfl
      | ok ts =>
        simp only [show a + 1 + n = a + (n + 1) by omega]
        cases readTrits m (a + (n + 1)) k <;> rfl

/-- After trits are written from `a` on, a cell of that range holds its trit and every other cell what it held. -/
theorem read_writeTrits (m : Memory 2) (a : Nat) (ts : List Trit) (c : Nat) :
    (writeTrits m a ts).read c =
      if a ≤ c ∧ c < a + ts.length then (ts[c - a]?).map Trit.pattern else m.read c := by
  simp [writeTrits, Memory.read_writeCells]

/-- Writing trits keeps the canonical form. -/
theorem wf_writeTrits (m : Memory 2) (a : Nat) (ts : List Trit) (h : m.wf = true) :
    (writeTrits m a ts).wf = true :=
  Memory.wf_writeCells m a _ h

end Sys2Proof.Machine
end

