-- ==== Sys2Proof/Laws/Cells.lean ====
section
/-! SUPPORT. Ranges of cells that hold given contents, and the three conditions on a memory that every write keeps. -/

namespace Sys2Proof.Machine

variable {w : Nat}

/-- What has been written to a range stands there. -/
theorem holdsCells_writeCells (m : Memory w) (a : Nat) (vs : List (BitVec w)) : HoldsCells (m.writeCells a vs) a vs := by
  intro i h
  rw [Memory.read_writeCells, if_pos (by omega), show a + i - a = i by omega, List.getElem?_eq_getElem h]

/-- The trits written to a range stand there. -/
theorem holdsTrits_writeTrits (m : Memory 2) (a : Nat) (ts : List Trit) : HoldsTrits (writeTrits m a ts) a ts := by
  intro i h
  rw [read_writeTrits, if_pos (by omega), show a + i - a = i by omega, List.getElem?_eq_getElem h]
  rfl

/-- Cells that hold trits are read as those trits. -/
theorem readTrits_of_holdsTrits (m : Memory 2) (a : Nat) (ts : List Trit) (h : HoldsTrits m a ts) :
    readTrits m a ts.length = .ok ts :=
  (readTrits_ok_iff m a ts.length ts).2 ⟨rfl, h⟩

/-- Cells that hold contents are read as those contents. -/
theorem readCells_of_holdsCells (m : Memory w) (a : Nat) (vs : List (BitVec w)) (h : HoldsCells m a vs) :
    m.readCells a vs.length = .ok vs :=
  (Memory.readCells_ok_iff m a vs.length vs).2 ⟨rfl, h⟩

/-- A write inside a memory keeps it within its size. -/
theorem within_write (m : Memory w) (size a : Nat) (v : BitVec w) (h : m.within size) (ha : a < size) :
    (m.write a v).within size := by
  intro c hc
  rw [Memory.read_write, if_neg (by omega), h c hc]

/-- A write of a range inside a memory keeps it within its size. -/
theorem within_writeCells (m : Memory w) (size a : Nat) (vs : List (BitVec w)) (h : m.within size)
    (ha : a + vs.length ≤ size) : (m.writeCells a vs).within size := by
  intro c hc
  rw [Memory.read_writeCells, if_neg (by omega), h c hc]

/-- Writing trits leaves no cell with the pattern that is no trit. -/
theorem allTrits_writeTrits (m : Memory 2) (a : Nat) (ts : List Trit) (h : allTrits m) :
    allTrits (writeTrits m a ts) := by
  intro c
  rw [read_writeTrits]
  split
  · cases ts[c - a]? with
    | none => simp
    | some t => simpa using Trit.pattern_ne_invalid t
  · exact h c

/-- The memories of the reset state have the canonical form. -/
theorem reset_memories_wf :
    State.reset.tmem.wf = true ∧ State.reset.ymem.wf = true ∧ State.reset.buf.wf = true := by
  decide

/-- So have those a hardware reset leaves. -/
theorem hardwareReset_memories_wf (s : State) :
    (hardwareReset s).tmem.wf = true ∧ (hardwareReset s).ymem.wf = true ∧ (hardwareReset s).buf.wf = true :=
  ⟨rfl, rfl, rfl⟩

end Sys2Proof.Machine
end

