-- ==== Sys2Proof/Laws/Codec.lean ====
section
/-! SUPPORT. What the two pure functions of the converter and of the tryte lookup answer, when they answer. -/

namespace Sys2Proof.Machine

theorem Trit.toInt_bounds (t : Trit) : -1 ≤ t.toInt ∧ t.toInt ≤ 1 := by
  cases t <;> decide

@[simp] theorem tritValue_nil : tritValue [] = 0 := rfl

@[simp] theorem tritValue_cons (t : Trit) (ts : List Trit) :
    tritValue (t :: ts) = t.toInt + 3 * tritValue ts := rfl

/-- The value of two sequences in a row. -/
theorem tritValue_append (xs ys : List Trit) :
    tritValue (xs ++ ys) = tritValue xs + 3 ^ xs.length * tritValue ys := by
  induction xs with
  | nil => simp
  | cons x xs ih =>
    simp only [List.cons_append, tritValue_cons, ih, List.length_cons, pow_succ]
    ring

/-- Twice the value of `n` trits is at most 3^n − 1 in magnitude. -/
theorem two_mul_tritValue_bounds (ts : List Trit) :
    -(3 ^ ts.length - 1) ≤ 2 * tritValue ts ∧ 2 * tritValue ts ≤ 3 ^ ts.length - 1 := by
  induction ts with
  | nil => simp
  | cons t ts ih =>
    have := Trit.toInt_bounds t
    simp only [tritValue_cons, List.length_cons, pow_succ]
    constructor <;> linarith [ih.1, ih.2]

/-- Where the powers of 3 lie among the powers of 2, in the form the bounds on values need (00_scope.md R9). -/
theorem three_pow_between : (3 : Int) ^ 242 - 1 ≤ 2 * (2 ^ 383 - 1) ∧ (2 : Int) * 2 ^ 383 ≤ 3 ^ 243 - 1 := by
  have h : 3 ^ 242 + 1 ≤ 2 * 2 ^ 383 ∧ 2 * 2 ^ 383 + 1 ≤ 3 ^ 243 := by decide +kernel
  have h1 : (3 : Int) ^ 242 + 1 ≤ 2 * 2 ^ 383 := mod_cast h.1
  have h2 : (2 : Int) * 2 ^ 383 + 1 ≤ 3 ^ 243 := mod_cast h.2
  generalize (3 : Int) ^ 242 = x at *
  generalize (3 : Int) ^ 243 = y at *
  generalize (2 : Int) ^ 383 = z at *
  omega

/-- The digit step takes a digit off and leaves a quotient. -/
theorem bal3_sum (q : Int) : (bal3 q).1.toInt + 3 * (bal3 q).2 = q := by
  unfold bal3
  split
  · simp only [Trit.toInt]
    omega
  · split
    · simp only [Trit.toInt]
      omega
    · simp only [Trit.toInt]
      omega

theorem digits_succ (n : Nat) (q : Int) :
    digits (n + 1) q = ((bal3 q).1 :: (digits n (bal3 q).2).1, (digits n (bal3 q).2).2) := rfl

/-- `n` digit steps give `n` digits and a quotient that together make the number. -/
theorem digits_sum (n : Nat) (q : Int) :
    (digits n q).1.length = n ∧ tritValue (digits n q).1 + 3 ^ n * (digits n q).2 = q := by
  induction n generalizing q with
  | zero => simp [digits]
  | succ n ih =>
    obtain ⟨hl, hv⟩ := ih (bal3 q).2
    rw [digits_succ]
    refine ⟨by simp [hl], ?_⟩
    have := bal3_sum q
    simp only [tritValue_cons, pow_succ]
    linear_combination this + 3 * hv

/-- A converted chunk has 243 trits, and the value of the bytes. -/
theorem bytesToTrits_spec (b : Block) (ts : List Trit) (h : bytesToTrits b = .ok ts) :
    ts.length = 243 ∧ tritValue ts = blockValue b := by
  have hd := digits_sum 243 (blockValue b)
  unfold bytesToTrits at h
  split at h
  rename_i us q heq
  rw [heq] at hd
  split at h
  · simp at h
  · rename_i hq
    simp only [ne_eq, not_not] at hq
    obtain rfl : us = ts := by simpa using h
    subst hq
    exact ⟨hd.1, by simpa using hd.2⟩

/-- A converted chunk of trits is rendered, and only where its value fits. -/
theorem tritsToBytes_ok_iff (ts : List Trit) (b : Block) :
    tritsToBytes ts = .ok b ↔
      -(2 ^ 383) ≤ tritValue ts ∧ tritValue ts ≤ 2 ^ 383 - 1 ∧ b = render (tritValue ts) := by
  unfold tritsToBytes
  split
  · simp only [reduceCtorEq, false_iff]
    omega
  · rename_i h
    rw [Except.ok.injEq, eq_comm]
    exact ⟨fun hb => ⟨by omega, by omega, hb⟩, fun hb => hb.2.2⟩

/-- The only error of the conversion to bytes is `Overflow`, where the value does not fit. -/
theorem tritsToBytes_error_iff (ts : List Trit) (e : ErrCode) :
    tritsToBytes ts = .error e ↔ e = .overflow ∧ (tritValue ts < -(2 ^ 383) ∨ 2 ^ 383 - 1 < tritValue ts) := by
  unfold tritsToBytes
  split
  · simp only [Except.error.injEq, eq_comm (b := e)]
    tauto
  · simp only [reduceCtorEq, false_iff]
    tauto

/-- The only error of the conversion to trits is `Overflow`. -/
theorem bytesToTrits_error (b : Block) (e : ErrCode) (h : bytesToTrits b = .error e) : e = .overflow := by
  unfold bytesToTrits at h
  split at h
  split at h <;> simp_all

@[simp] theorem blockBytes_length (b : Block) : (blockBytes b).length = 48 := by
  simp [blockBytes]

/-- A valid tryte string gives three trits for each symbol; its symbols are all in the alphabet. -/
theorem trytesToTrits_spec (cs : List Byte) (ts : List Trit) (h : trytesToTrits cs = .ok ts) :
    ts.length = 3 * cs.length ∧ ∀ c ∈ cs, symToTriple c ≠ none := by
  induction cs generalizing ts with
  | nil =>
    obtain rfl : [] = ts := by simpa [trytesToTrits] using h
    simp
  | cons c cs ih =>
    simp only [trytesToTrits] at h
    split at h
    · simp at h
    · rename_i t0 t1 t2 hc
      split at h
      · simp at h
      · rename_i us hu
        obtain rfl : t0 :: t1 :: t2 :: us = ts := by simpa using h
        obtain ⟨hl, hs⟩ := ih us hu
        refine ⟨by simp [hl]; omega, ?_⟩
        simp only [List.mem_cons, forall_eq_or_imp]
        exact ⟨by simp [hc], hs⟩

/-- The only error of a tryte string is `InvalidSymbol`, and then a symbol of it is outside the alphabet. -/
theorem trytesToTrits_error (cs : List Byte) (e : ErrCode) (h : trytesToTrits cs = .error e) :
    e = .invalidSymbol ∧ ∃ c ∈ cs, symToTriple c = none := by
  induction cs generalizing e with
  | nil => simp [trytesToTrits] at h
  | cons c cs ih =>
    simp only [trytesToTrits] at h
    split at h
    · rename_i hc
      exact ⟨by simpa using h.symm, c, by simp, hc⟩
    · split at h
      · rename_i e' he
        obtain rfl : e' = e := by simpa using h
        obtain ⟨h1, c', hc', hn⟩ := ih e' he
        exact ⟨h1, c', by simp [hc'], hn⟩
      · simp at h

/-- There is one symbol for each whole group of three trits. -/
theorem groupSymbols_length (n : Nat) (ts : List Trit) (h : ts.length = 3 * n) : (groupSymbols ts).length = n := by
  induction n generalizing ts with
  | zero =>
    obtain rfl : ts = [] := List.length_eq_zero_iff.1 (by omega)
    rfl
  | succ n ih =>
    match ts, h with
    | t0 :: t1 :: t2 :: us, h => simp [groupSymbols, ih us (by simp at h; omega)]

theorem tritsToTrytes_of_length (ts : List Trit) (h : ts.length % 3 = 0) :
    tritsToTrytes ts = .ok (groupSymbols ts) := by
  simp [tritsToTrytes, h]

end Sys2Proof.Machine
end

