-- ==== Sys2Proof/Laws/Engine.lean ====
section
/-! SUPPORT. What the two chunk loops of the engine leave, when they end. -/

namespace Sys2Proof.Machine

@[simp] theorem maskTop_length (c : List Trit) : (maskTop c).length = c.length := by
  simp [maskTop]

/-- The masked chunk has top trit 0. -/
theorem maskTop_top (c : List Trit) (h : c.length = 243) : (maskTop c)[242]? = some .zero := by
  simp [maskTop, h]

@[simp] theorem topPolicy_length (p : Params) (t : List Trit) : (topPolicy p t).length = t.length := by
  unfold topPolicy
  split <;> simp

/-- A bound computation that answers: its first part answered. -/
theorem Except.bind_ok_iff {ε α β : Type} (x : Except ε α) (f : α → Except ε β) (b : β) :
    x.bind f = .ok b ↔ ∃ a, x = .ok a ∧ f a = .ok b := by
  cases x <;> simp [Except.bind]

/-- A bound computation that ends with an error: its first part did, or the rest. -/
theorem Except.bind_error_iff {ε α β : Type} (x : Except ε α) (f : α → Except ε β) (e : ε) :
    x.bind f = .error e ↔ x = .error e ∨ ∃ a, x = .ok a ∧ f a = .error e := by
  cases x <;> simp [Except.bind]

/-- ABSORB's loop appends one block for each chunk, each the rendered value of its masked chunk. -/
theorem absorbLoop_spec (k : Nat) (ts : List Trit) (c c' : List Block) (h : absorbLoop k ts c = .ok c') :
    c' = c ++ (List.range k).map (fun j => render (tritValue (maskTop ((ts.drop (243 * j)).take 243)))) := by
  induction k generalizing ts c with
  | zero => simpa [absorbLoop] using h.symm
  | succ k ih =>
    simp only [absorbLoop, Except.bind_ok_iff] at h
    obtain ⟨b, hb, h⟩ := h
    obtain ⟨-, -, rfl⟩ := (tritsToBytes_ok_iff _ _).1 hb
    rw [ih _ _ h, List.range_succ_eq_map]
    simp [piUpdate, Function.comp_def, Nat.mul_add, Nat.add_comm]

/-- The only error ABSORB's loop could end with is `Overflow`. -/
theorem absorbLoop_error (k : Nat) (ts : List Trit) (c : List Block) (e : ErrCode)
    (h : absorbLoop k ts c = .error e) : e = .overflow := by
  induction k generalizing ts c with
  | zero => simp [absorbLoop] at h
  | succ k ih =>
    simp only [absorbLoop, Except.bind_error_iff] at h
    obtain he | ⟨b, -, h⟩ := h
    · exact ((tritsToBytes_error_iff _ _).1 he).1
    · exact ih _ _ h

/-- After `n` chunks come the next `k`. -/
theorem absorbLoop_add (n k : Nat) (ts us : List Trit) (c : List Block) (h : ts.length = 243 * n) :
    absorbLoop (n + k) (ts ++ us) c =
      (absorbLoop n ts c).bind fun c' => absorbLoop k us c' := by
  induction n generalizing ts c with
  | zero =>
    obtain rfl : ts = [] := List.length_eq_zero_iff.1 (by omega)
    simp [absorbLoop, Except.bind]
  | succ n ih =>
    rw [show n + 1 + k = n + k + 1 by omega]
    simp only [absorbLoop]
    rw [List.take_append_of_le_length (by omega), List.drop_append_of_le_length (by omega)]
    cases tritsToBytes (maskTop (List.take 243 ts)) with
    | error e => rfl
    | ok b => exact ih _ _ (by rw [List.length_drop]; omega)

/-- SQUEEZE's loop writes only the cells of its chunks, leaves the complement of one digest in the context, and keeps the
canonical form. -/
theorem squeezeLoop_spec (p : Params) (k a : Nat) (c c' : List Block) (m m' : Memory 2)
    (h : squeezeLoop p k a c m = .ok (c', m')) :
    (0 < k → ∃ blocks, c' = [invertBlock (p.hash blocks)]) ∧
    (∀ x, x < a ∨ a + 243 * k ≤ x → m'.read x = m.read x) ∧
    (∀ x, a ≤ x → x < a + 243 * k → ∃ t : Trit, m'.read x = some t.pattern) ∧
    (m.wf = true → m'.wf = true) := by
  induction k generalizing a c m with
  | zero =>
    simp only [squeezeLoop, Except.ok.injEq, Prod.mk.injEq] at h
    obtain ⟨rfl, rfl⟩ := h
    simp
    omega
  | succ k ih =>
    simp only [squeezeLoop, Except.bind_ok_iff] at h
    obtain ⟨t, ht, h⟩ := h
    obtain ⟨hlen, -⟩ := bytesToTrits_spec _ _ ht
    obtain ⟨h1, h2, h3, h4⟩ := ih _ _ _ h
    refine ⟨fun _ => ?_, fun x hx => ?_, fun x hx hx' => ?_, fun hm => h4 (wf_writeTrits _ _ _ hm)⟩
    · cases k with
      | zero =>
        simp only [squeezeLoop, Except.ok.injEq, Prod.mk.injEq] at h
        exact ⟨c, by rw [← h.1]; rfl⟩
      | succ k => exact h1 (by omega)
    · rw [h2 x (by omega), read_writeTrits, topPolicy_length, hlen, if_neg (by omega)]
    · by_cases hge : a + 243 ≤ x
      · exact h3 x hge (by omega)
      · rw [h2 x (by omega), read_writeTrits, topPolicy_length, hlen, if_pos (by omega)]
        have hi : x - a < (topPolicy p t).length := by rw [topPolicy_length, hlen]; omega
        exact ⟨(topPolicy p t)[x - a], by rw [List.getElem?_eq_getElem hi]; rfl⟩

/-- The only error SQUEEZE's loop could end with is `Overflow`. -/
theorem squeezeLoop_error (p : Params) (k a : Nat) (c : List Block) (m : Memory 2) (e : ErrCode)
    (h : squeezeLoop p k a c m = .error e) : e = .overflow := by
  induction k generalizing a c m with
  | zero => simp [squeezeLoop] at h
  | succ k ih =>
    simp only [squeezeLoop, Except.bind_error_iff] at h
    obtain he | ⟨t, -, h⟩ := h
    · exact bytesToTrits_error _ _ he
    · exact ih _ _ _ h

/-- After `n` chunks come the next `k`. -/
theorem squeezeLoop_add (p : Params) (n k a : Nat) (c : List Block) (m : Memory 2) :
    squeezeLoop p (n + k) a c m =
      (squeezeLoop p n a c m).bind fun r => squeezeLoop p k (a + 243 * n) r.1 r.2 := by
  induction n generalizing a c m with
  | zero => simp [squeezeLoop, Except.bind]
  | succ n ih =>
    rw [show n + 1 + k = n + k + 1 by omega]
    simp only [squeezeLoop]
    cases bytesToTrits (piDigest p c) with
    | error e => rfl
    | ok t =>
      simp only [Except.bind, ih, show a + 243 * (n + 1) = a + 243 + 243 * n by omega]

end Sys2Proof.Machine
end

