-- ==== Sys2Proof/Laws/State.lean ====
section
/-! SUPPORT. What each update of the state leaves in each field, true by definition: no proof unfolds an update. -/

namespace Sys2Proof.Machine

@[simp] theorem State.setCtx_ctx (s : State) (c : List Block) : (s.setCtx c).ctx = c := rfl
@[simp] theorem State.setCtx_phase (s : State) (c : List Block) : (s.setCtx c).phase = s.phase := rfl
@[simp] theorem State.setCtx_err (s : State) (c : List Block) : (s.setCtx c).err = s.err := rfl
@[simp] theorem State.setCtx_buf (s : State) (c : List Block) : (s.setCtx c).buf = s.buf := rfl
@[simp] theorem State.setCtx_tmem (s : State) (c : List Block) : (s.setCtx c).tmem = s.tmem := rfl
@[simp] theorem State.setCtx_ymem (s : State) (c : List Block) : (s.setCtx c).ymem = s.ymem := rfl
@[simp] theorem State.setCtx_refused (s : State) (c : List Block) : (s.setCtx c).refused = s.refused := rfl
@[simp] theorem State.setCtx_pending (s : State) (c : List Block) : (s.setCtx c).pending = s.pending := rfl
@[simp] theorem State.setCtx_response (s : State) (c : List Block) : (s.setCtx c).response = s.response := rfl

@[simp] theorem State.setPhase_ctx (s : State) (ph : Phase) : (s.setPhase ph).ctx = s.ctx := rfl
@[simp] theorem State.setPhase_phase (s : State) (ph : Phase) : (s.setPhase ph).phase = ph := rfl
@[simp] theorem State.setPhase_err (s : State) (ph : Phase) : (s.setPhase ph).err = s.err := rfl
@[simp] theorem State.setPhase_buf (s : State) (ph : Phase) : (s.setPhase ph).buf = s.buf := rfl
@[simp] theorem State.setPhase_tmem (s : State) (ph : Phase) : (s.setPhase ph).tmem = s.tmem := rfl
@[simp] theorem State.setPhase_ymem (s : State) (ph : Phase) : (s.setPhase ph).ymem = s.ymem := rfl
@[simp] theorem State.setPhase_refused (s : State) (ph : Phase) : (s.setPhase ph).refused = s.refused := rfl
@[simp] theorem State.setPhase_pending (s : State) (ph : Phase) : (s.setPhase ph).pending = s.pending := rfl
@[simp] theorem State.setPhase_response (s : State) (ph : Phase) : (s.setPhase ph).response = s.response := rfl

@[simp] theorem State.setErr_ctx (s : State) (e : ErrCode) : (s.setErr e).ctx = s.ctx := rfl
@[simp] theorem State.setErr_phase (s : State) (e : ErrCode) : (s.setErr e).phase = s.phase := rfl
@[simp] theorem State.setErr_err (s : State) (e : ErrCode) : (s.setErr e).err = e := rfl
@[simp] theorem State.setErr_buf (s : State) (e : ErrCode) : (s.setErr e).buf = s.buf := rfl
@[simp] theorem State.setErr_tmem (s : State) (e : ErrCode) : (s.setErr e).tmem = s.tmem := rfl
@[simp] theorem State.setErr_ymem (s : State) (e : ErrCode) : (s.setErr e).ymem = s.ymem := rfl
@[simp] theorem State.setErr_refused (s : State) (e : ErrCode) : (s.setErr e).refused = s.refused := rfl
@[simp] theorem State.setErr_pending (s : State) (e : ErrCode) : (s.setErr e).pending = s.pending := rfl
@[simp] theorem State.setErr_response (s : State) (e : ErrCode) : (s.setErr e).response = s.response := rfl

@[simp] theorem State.setBuf_ctx (s : State) (m : Memory 8) : (s.setBuf m).ctx = s.ctx := rfl
@[simp] theorem State.setBuf_phase (s : State) (m : Memory 8) : (s.setBuf m).phase = s.phase := rfl
@[simp] theorem State.setBuf_err (s : State) (m : Memory 8) : (s.setBuf m).err = s.err := rfl
@[simp] theorem State.setBuf_buf (s : State) (m : Memory 8) : (s.setBuf m).buf = m := rfl
@[simp] theorem State.setBuf_tmem (s : State) (m : Memory 8) : (s.setBuf m).tmem = s.tmem := rfl
@[simp] theorem State.setBuf_ymem (s : State) (m : Memory 8) : (s.setBuf m).ymem = s.ymem := rfl
@[simp] theorem State.setBuf_refused (s : State) (m : Memory 8) : (s.setBuf m).refused = s.refused := rfl
@[simp] theorem State.setBuf_pending (s : State) (m : Memory 8) : (s.setBuf m).pending = s.pending := rfl
@[simp] theorem State.setBuf_response (s : State) (m : Memory 8) : (s.setBuf m).response = s.response := rfl

@[simp] theorem State.setTmem_ctx (s : State) (m : Memory 2) : (s.setTmem m).ctx = s.ctx := rfl
@[simp] theorem State.setTmem_phase (s : State) (m : Memory 2) : (s.setTmem m).phase = s.phase := rfl
@[simp] theorem State.setTmem_err (s : State) (m : Memory 2) : (s.setTmem m).err = s.err := rfl
@[simp] theorem State.setTmem_buf (s : State) (m : Memory 2) : (s.setTmem m).buf = s.buf := rfl
@[simp] theorem State.setTmem_tmem (s : State) (m : Memory 2) : (s.setTmem m).tmem = m := rfl
@[simp] theorem State.setTmem_ymem (s : State) (m : Memory 2) : (s.setTmem m).ymem = s.ymem := rfl
@[simp] theorem State.setTmem_refused (s : State) (m : Memory 2) : (s.setTmem m).refused = s.refused := rfl
@[simp] theorem State.setTmem_pending (s : State) (m : Memory 2) : (s.setTmem m).pending = s.pending := rfl
@[simp] theorem State.setTmem_response (s : State) (m : Memory 2) : (s.setTmem m).response = s.response := rfl

@[simp] theorem State.setYmem_ctx (s : State) (m : Memory 8) : (s.setYmem m).ctx = s.ctx := rfl
@[simp] theorem State.setYmem_phase (s : State) (m : Memory 8) : (s.setYmem m).phase = s.phase := rfl
@[simp] theorem State.setYmem_err (s : State) (m : Memory 8) : (s.setYmem m).err = s.err := rfl
@[simp] theorem State.setYmem_buf (s : State) (m : Memory 8) : (s.setYmem m).buf = s.buf := rfl
@[simp] theorem State.setYmem_tmem (s : State) (m : Memory 8) : (s.setYmem m).tmem = s.tmem := rfl
@[simp] theorem State.setYmem_ymem (s : State) (m : Memory 8) : (s.setYmem m).ymem = m := rfl
@[simp] theorem State.setYmem_refused (s : State) (m : Memory 8) : (s.setYmem m).refused = s.refused := rfl
@[simp] theorem State.setYmem_pending (s : State) (m : Memory 8) : (s.setYmem m).pending = s.pending := rfl
@[simp] theorem State.setYmem_response (s : State) (m : Memory 8) : (s.setYmem m).response = s.response := rfl

@[simp] theorem State.setPending_ctx (s : State) (es : List Event) : (s.setPending es).ctx = s.ctx := rfl
@[simp] theorem State.setPending_phase (s : State) (es : List Event) : (s.setPending es).phase = s.phase := rfl
@[simp] theorem State.setPending_err (s : State) (es : List Event) : (s.setPending es).err = s.err := rfl
@[simp] theorem State.setPending_buf (s : State) (es : List Event) : (s.setPending es).buf = s.buf := rfl
@[simp] theorem State.setPending_tmem (s : State) (es : List Event) : (s.setPending es).tmem = s.tmem := rfl
@[simp] theorem State.setPending_ymem (s : State) (es : List Event) : (s.setPending es).ymem = s.ymem := rfl
@[simp] theorem State.setPending_refused (s : State) (es : List Event) : (s.setPending es).refused = s.refused := rfl
@[simp] theorem State.setPending_pending (s : State) (es : List Event) : (s.setPending es).pending = es := rfl
@[simp] theorem State.setPending_response (s : State) (es : List Event) : (s.setPending es).response = s.response := rfl

@[simp] theorem State.setResponse_ctx (s : State) (r : Option Response) : (s.setResponse r).ctx = s.ctx := rfl
@[simp] theorem State.setResponse_phase (s : State) (r : Option Response) : (s.setResponse r).phase = s.phase := rfl
@[simp] theorem State.setResponse_err (s : State) (r : Option Response) : (s.setResponse r).err = s.err := rfl
@[simp] theorem State.setResponse_buf (s : State) (r : Option Response) : (s.setResponse r).buf = s.buf := rfl
@[simp] theorem State.setResponse_tmem (s : State) (r : Option Response) : (s.setResponse r).tmem = s.tmem := rfl
@[simp] theorem State.setResponse_ymem (s : State) (r : Option Response) : (s.setResponse r).ymem = s.ymem := rfl
@[simp] theorem State.setResponse_refused (s : State) (r : Option Response) : (s.setResponse r).refused = s.refused := rfl
@[simp] theorem State.setResponse_pending (s : State) (r : Option Response) : (s.setResponse r).pending = s.pending := rfl
@[simp] theorem State.setResponse_response (s : State) (r : Option Response) : (s.setResponse r).response = r := rfl

@[simp] theorem State.markRefused_ctx (s : State) : s.markRefused.ctx = s.ctx := rfl
@[simp] theorem State.markRefused_phase (s : State) : s.markRefused.phase = s.phase := rfl
@[simp] theorem State.markRefused_err (s : State) : s.markRefused.err = s.err := rfl
@[simp] theorem State.markRefused_buf (s : State) : s.markRefused.buf = s.buf := rfl
@[simp] theorem State.markRefused_tmem (s : State) : s.markRefused.tmem = s.tmem := rfl
@[simp] theorem State.markRefused_ymem (s : State) : s.markRefused.ymem = s.ymem := rfl
@[simp] theorem State.markRefused_refused (s : State) : s.markRefused.refused = true := rfl
@[simp] theorem State.markRefused_pending (s : State) : s.markRefused.pending = s.pending := rfl
@[simp] theorem State.markRefused_response (s : State) : s.markRefused.response = s.response := rfl

@[simp] theorem hardwareReset_ctx (s : State) : (hardwareReset s).ctx = [] := rfl
@[simp] theorem hardwareReset_phase (s : State) : (hardwareReset s).phase = .fresh := rfl
@[simp] theorem hardwareReset_err (s : State) : (hardwareReset s).err = .ok := rfl
@[simp] theorem hardwareReset_buf (s : State) : (hardwareReset s).buf = [] := rfl
@[simp] theorem hardwareReset_tmem (s : State) : (hardwareReset s).tmem = [] := rfl
@[simp] theorem hardwareReset_ymem (s : State) : (hardwareReset s).ymem = [] := rfl
@[simp] theorem hardwareReset_refused (s : State) : (hardwareReset s).refused = s.refused := rfl
@[simp] theorem hardwareReset_pending (s : State) : (hardwareReset s).pending = s.pending := rfl
@[simp] theorem hardwareReset_response (s : State) : (hardwareReset s).response = s.response := rfl

/-- Two states with the same fields are the same. -/
theorem State.ext_fields (s t : State) (hctx : s.ctx = t.ctx) (hphase : s.phase = t.phase) (herr : s.err = t.err)
    (hbuf : s.buf = t.buf) (htmem : s.tmem = t.tmem) (hymem : s.ymem = t.ymem) (hrefused : s.refused = t.refused)
    (hpending : s.pending = t.pending) (hresponse : s.response = t.response) : s = t := by
  cases s
  cases t
  simp_all

end Sys2Proof.Machine
end

