-- ==== Sys2Proof/Laws/Commands.lean ====
section
/-! SUPPORT. For each command one lemma that says everything it can do: the checks in their order, and what follows each.
The proofs about commands cite these and unfold no meaning. -/

namespace Sys2Proof.Machine

@[simp] theorem complete_eq (s : State) : complete s = .next (s.setErr .ok) := rfl

@[simp] theorem raise_eq (e : ErrCode) (s : State) : raise e s = .next (s.setErr e) := rfl

@[simp] theorem refuse_eq (r : Refusal) : refuse r = .refused r := rfl

theorem newWith_eq (s : State) :
    newWith s = .next (((s.setCtx []).setPhase .fresh).setErr .ok) := rfl

/-- Everything ABSORB can do. -/
theorem absorbWith_cases (p : Params) (a : Nat) (n : Int) (s : State) :
    ((n ≤ 0 ∨ n % 243 ≠ 0) ∧ absorbWith p a n s = .next (s.setErr .invalidInput)) ∨
    (0 < n ∧ n % 243 = 0 ∧
      ((p.sizeT < a + n.toNat ∧ absorbWith p a n s = .next (s.setErr .badRange)) ∨
       (a + n.toNat ≤ p.sizeT ∧
        ((s.phase = .squeezing ∧ absorbWith p a n s = .refused .absorbAfterSqueeze) ∨
         (s.phase ≠ .squeezing ∧
          ((∃ r, readTrits s.tmem a n.toNat = .error r ∧ absorbWith p a n s = .refused r) ∨
           (∃ ts, readTrits s.tmem a n.toNat = .ok ts ∧
            ((∃ e, absorbLoop (n.toNat / 243) ts s.ctx = .error e ∧ absorbWith p a n s = .next (s.setErr e)) ∨
             (∃ c, absorbLoop (n.toNat / 243) ts s.ctx = .ok c ∧
              absorbWith p a n s = .next (((s.setCtx c).setPhase .absorbing).setErr .ok)))))))))) := by
  by_cases h1 : n ≤ 0 ∨ n % 243 ≠ 0
  · exact .inl ⟨h1, by simp only [absorbWith, if_pos h1, raise_eq]⟩
  refine .inr ⟨by omega, by omega, ?_⟩
  by_cases h2 : p.sizeT < a + n.toNat
  · exact .inl ⟨h2, by simp only [absorbWith, if_neg h1, if_pos h2, raise_eq]⟩
  refine .inr ⟨by omega, ?_⟩
  by_cases h3 : s.phase = .squeezing
  · exact .inl ⟨h3, by simp only [absorbWith, if_neg h1, if_neg h2, if_pos h3, refuse_eq]⟩
  refine .inr ⟨h3, ?_⟩
  simp only [absorbWith, if_neg h1, if_neg h2, if_neg h3]
  cases readTrits s.tmem a n.toNat with
  | error r => exact .inl ⟨r, rfl, rfl⟩
  | ok ts =>
    refine .inr ⟨ts, rfl, ?_⟩
    dsimp only
    cases absorbLoop (n.toNat / 243) ts s.ctx with
    | error e => exact .inl ⟨e, rfl, rfl⟩
    | ok c => exact .inr ⟨c, rfl, rfl⟩

/-- Everything SQUEEZE can do. -/
theorem squeezeWith_cases (p : Params) (a : Nat) (n : Int) (s : State) :
    ((n ≤ 0 ∨ n % 243 ≠ 0) ∧ squeezeWith p a n s = .next (s.setErr .invalidInput)) ∨
    (0 < n ∧ n % 243 = 0 ∧
      ((p.sizeT < a + n.toNat ∧ squeezeWith p a n s = .next (s.setErr .badRange)) ∨
       (a + n.toNat ≤ p.sizeT ∧
        ((∃ e, squeezeLoop p (n.toNat / 243) a s.ctx s.tmem = .error e ∧
            squeezeWith p a n s = .next (s.setErr e)) ∨
         (∃ c m, squeezeLoop p (n.toNat / 243) a s.ctx s.tmem = .ok (c, m) ∧
            squeezeWith p a n s =
              .next ((((s.setCtx c).setTmem m).setPhase .squeezing).setErr .ok)))))) := by
  by_cases h1 : n ≤ 0 ∨ n % 243 ≠ 0
  · exact .inl ⟨h1, by simp only [squeezeWith, if_pos h1, raise_eq]⟩
  refine .inr ⟨by omega, by omega, ?_⟩
  by_cases h2 : p.sizeT < a + n.toNat
  · exact .inl ⟨h2, by simp only [squeezeWith, if_neg h1, if_pos h2, raise_eq]⟩
  refine .inr ⟨by omega, ?_⟩
  simp only [squeezeWith, if_neg h1, if_neg h2]
  cases squeezeLoop p (n.toNat / 243) a s.ctx s.tmem with
  | error e => exact .inl ⟨e, rfl, rfl⟩
  | ok r => exact .inr ⟨r.1, r.2, rfl, rfl⟩

/-- Everything Y2T can do. -/
theorem y2tWith_cases (p : Params) (a b : Nat) (n : Int) (s : State) :
    ((n < 0 ∨ p.sizeY < b + n.toNat ∨ p.sizeT < a + 3 * n.toNat) ∧
      y2tWith p a b n s = .next (s.setErr .badRange)) ∨
    (0 ≤ n ∧ b + n.toNat ≤ p.sizeY ∧ a + 3 * n.toNat ≤ p.sizeT ∧
      ((∃ r, s.ymem.readCells b n.toNat = .error r ∧ y2tWith p a b n s = .refused r) ∨
       (∃ cs, s.ymem.readCells b n.toNat = .ok cs ∧
        ((∃ e, trytesToTrits cs = .error e ∧ y2tWith p a b n s = .next (s.setErr e)) ∨
         (∃ ts, trytesToTrits cs = .ok ts ∧
            y2tWith p a b n s = .next ((s.setTmem (writeTrits s.tmem a ts)).setErr .ok)))))) := by
  by_cases h1 : n < 0 ∨ p.sizeY < b + n.toNat ∨ p.sizeT < a + 3 * n.toNat
  · exact .inl ⟨h1, by simp only [y2tWith, if_pos h1, raise_eq]⟩
  refine .inr ⟨by omega, by omega, by omega, ?_⟩
  simp only [y2tWith, if_neg h1]
  cases s.ymem.readCells b n.toNat with
  | error r => exact .inl ⟨r, rfl, rfl⟩
  | ok cs =>
    refine .inr ⟨cs, rfl, ?_⟩
    dsimp only
    cases trytesToTrits cs with
    | error e => exact .inl ⟨e, rfl, rfl⟩
    | ok ts => exact .inr ⟨ts, rfl, rfl⟩

/-- Everything T2Y can do: once its length is a multiple of 3, no error of the lookup is left. -/
theorem t2yWith_cases (p : Params) (a b : Nat) (n : Int) (s : State) :
    (n % 3 ≠ 0 ∧ t2yWith p a b n s = .next (s.setErr .invalidLength)) ∨
    (n % 3 = 0 ∧
      (((n < 0 ∨ p.sizeT < a + n.toNat ∨ p.sizeY < b + n.toNat / 3) ∧
          t2yWith p a b n s = .next (s.setErr .badRange)) ∨
       (0 ≤ n ∧ a + n.toNat ≤ p.sizeT ∧ b + n.toNat / 3 ≤ p.sizeY ∧
        ((∃ r, readTrits s.tmem a n.toNat = .error r ∧ t2yWith p a b n s = .refused r) ∨
         (∃ ts, readTrits s.tmem a n.toNat = .ok ts ∧ tritsToTrytes ts = .ok (groupSymbols ts) ∧
            t2yWith p a b n s =
              .next ((s.setYmem (s.ymem.writeCells b (groupSymbols ts))).setErr .ok)))))) := by
  by_cases h1 : n % 3 ≠ 0
  · exact .inl ⟨h1, by simp only [t2yWith, if_pos h1, raise_eq]⟩
  refine .inr ⟨by omega, ?_⟩
  by_cases h2 : n < 0 ∨ p.sizeT < a + n.toNat ∨ p.sizeY < b + n.toNat / 3
  · exact .inl ⟨h2, by simp only [t2yWith, if_neg h1, if_pos h2, raise_eq]⟩
  refine .inr ⟨by omega, by omega, by omega, ?_⟩
  simp only [t2yWith, if_neg h1, if_neg h2]
  cases hr : readTrits s.tmem a n.toNat with
  | error r => exact .inl ⟨r, rfl, rfl⟩
  | ok ts =>
    have hl := ((readTrits_ok_iff _ _ _ _).1 hr).1
    have hg := tritsToTrytes_of_length ts (by omega)
    refine .inr ⟨ts, rfl, hg, ?_⟩
    simp only [hg, complete_eq]

/-- Everything T2B can do. -/
theorem t2bWith_cases (p : Params) (a : Nat) (s : State) :
    (p.sizeT < a + 243 ∧ t2bWith p a s = .next (s.setErr .badRange)) ∨
    (a + 243 ≤ p.sizeT ∧
      ((∃ r, readTrits s.tmem a 243 = .error r ∧ t2bWith p a s = .refused r) ∨
       (∃ ts, readTrits s.tmem a 243 = .ok ts ∧
        ((∃ e, tritsToBytes ts = .error e ∧ t2bWith p a s = .next (s.setErr e)) ∨
         (∃ b, tritsToBytes ts = .ok b ∧
            t2bWith p a s = .next ((s.setBuf (s.buf.writeCells 0 (blockBytes b))).setErr .ok)))))) := by
  by_cases h1 : p.sizeT < a + 243
  · exact .inl ⟨h1, by simp only [t2bWith, if_pos h1, raise_eq]⟩
  refine .inr ⟨by omega, ?_⟩
  simp only [t2bWith, if_neg h1]
  cases readTrits s.tmem a 243 with
  | error r => exact .inl ⟨r, rfl, rfl⟩
  | ok ts =>
    refine .inr ⟨ts, rfl, ?_⟩
    dsimp only
    cases tritsToBytes ts with
    | error e => exact .inl ⟨e, rfl, rfl⟩
    | ok b => exact .inr ⟨b, rfl, rfl⟩

/-- Everything B2T can do. -/
theorem b2tWith_cases (p : Params) (a : Nat) (s : State) :
    (p.sizeT < a + 243 ∧ b2tWith p a s = .next (s.setErr .badRange)) ∨
    (a + 243 ≤ p.sizeT ∧
      ((∃ r, s.buf.readCells 0 48 = .error r ∧ b2tWith p a s = .refused r) ∨
       (∃ bs, s.buf.readCells 0 48 = .ok bs ∧
        ((∃ e, bytesToTrits (blockOfBytes bs) = .error e ∧ b2tWith p a s = .next (s.setErr e)) ∨
         (∃ ts, bytesToTrits (blockOfBytes bs) = .ok ts ∧
            b2tWith p a s = .next ((s.setTmem (writeTrits s.tmem a ts)).setErr .ok)))))) := by
  by_cases h1 : p.sizeT < a + 243
  · exact .inl ⟨h1, by simp only [b2tWith, if_pos h1, raise_eq]⟩
  refine .inr ⟨by omega, ?_⟩
  simp only [b2tWith, if_neg h1]
  cases s.buf.readCells 0 48 with
  | error r => exact .inl ⟨r, rfl, rfl⟩
  | ok bs =>
    refine .inr ⟨bs, rfl, ?_⟩
    dsimp only
    cases bytesToTrits (blockOfBytes bs) with
    | error e => exact .inl ⟨e, rfl, rfl⟩
    | ok ts => exact .inr ⟨ts, rfl, rfl⟩

end Sys2Proof.Machine
end

