-- ==== Sys2Proof/Laws/Encoding.lean ====
section
/-! SUPPORT. The fields of a word the encoder writes, as the decoder reads them (30_encoding.md R70, R71). -/

namespace Sys2Proof

/-- The lowest 32 bits of a concatenation with a 32-bit low part. -/
theorem extractLsb'_append_low {w : Nat} (x : BitVec w) (y : BitVec 32) : (x ++ y).extractLsb' 0 32 = y := by
  ext i hi
  simp [BitVec.getLsbD_append, hi]

/-- 32 bits above a 32-bit low part come from the high part. -/
theorem extractLsb'_append_high {w : Nat} (k : Nat) (x : BitVec w) (y : BitVec 32) :
    (x ++ y).extractLsb' (k + 32) 32 = x.extractLsb' k 32 := by
  ext i hi
  simp [BitVec.getLsbD_append, Nat.add_right_comm, show ¬k + i + 32 < 32 by omega]

/-- A whole 32-bit vector. -/
theorem extractLsb'_whole (x : BitVec 32) : x.extractLsb' 0 32 = x := by
  ext i hi
  simp

@[simp] theorem opField_commandWord (op a b : Nat) (n : Int) : opField (commandWord op a b n) = BitVec.ofNat 32 op :=
  extractLsb'_append_low _ _

@[simp] theorem aField_commandWord (op a b : Nat) (n : Int) : aField (commandWord op a b n) = a % 2 ^ 32 := by
  unfold aField commandWord
  rw [extractLsb'_append_high 0, extractLsb'_append_low, BitVec.toNat_ofNat]

@[simp] theorem bField_commandWord (op a b : Nat) (n : Int) : bField (commandWord op a b n) = b % 2 ^ 32 := by
  unfold bField commandWord
  rw [extractLsb'_append_high 32, extractLsb'_append_high 0, extractLsb'_append_low, BitVec.toNat_ofNat]

@[simp] theorem nField_commandWord (op a b : Nat) (n : Int) :
    nField (commandWord op a b n) = (BitVec.ofInt 32 n).toInt := by
  unfold nField commandWord
  rw [extractLsb'_append_high 64, extractLsb'_append_high 32, extractLsb'_append_high 0, extractLsb'_whole]

/-- A word is its four fields. -/
theorem commandWord_fields (cw : CommandWord) :
    commandWord (opField cw).toNat (aField cw) (bField cw) (nField cw) = cw := by
  unfold commandWord opField aField bField nField
  simp only [BitVec.ofNat_toNat, BitVec.setWidth_eq, BitVec.ofInt_toInt]
  apply BitVec.eq_of_getLsbD_eq
  intro i hi
  simp only [BitVec.getLsbD_append, BitVec.getLsbD_extractLsb']
  split
  · rename_i h
    simp [h]
  · split
    · rename_i h
      simp [h, show 32 + (i - 32) = i by omega]
    · split
      · rename_i h
        simp [h, show 64 + (i - 32 - 32) = i by omega]
      · simp [show i - 32 - 32 - 32 < 32 by omega, show 96 + (i - 32 - 32 - 32) = i by omega]

end Sys2Proof
end

