-- ==== Sys2Proof/Laws/Exec.lean ====
section
/-! SUPPORT. Everything a command can answer, once for all commands: the next states and the refusals. -/

namespace Sys2Proof.Machine

/-- The machine's commands are the commands over the machine's parameters. -/
theorem exec_eq_commandWith (i : Instr) (s : State) : exec i s = commandWith Config.params i s := by
  cases i <;> rfl

/-- Where a command answers a next state, it has either written an error code and nothing else, or completed; the last
three cases of an error code are those of a check that cannot fail, kept because the spec states it. -/
theorem commandWith_next_cases (p : Params) (i : Instr) (s t : State) (h : commandWith p i s = .next t) :
    (∃ e, t = s.setErr e ∧ e ≠ .ok ∧
      ((e = .invalidInput ∧ ∃ a n, (i = .absorb a n ∨ i = .squeeze a n) ∧ (n ≤ 0 ∨ n % 243 ≠ 0)) ∨
       (e = .invalidLength ∧ ∃ a b n, i = .t2y a b n ∧ n % 3 ≠ 0) ∨
       (e = .badRange ∧ i ≠ .new) ∨
       (e = .invalidSymbol ∧ ∃ a b n cs, i = .y2t a b n ∧ 0 ≤ n ∧ s.ymem.readCells b n.toNat = .ok cs ∧
          trytesToTrits cs = .error .invalidSymbol) ∨
       (e = .overflow ∧ ∃ a ts, i = .t2b a ∧ readTrits s.tmem a 243 = .ok ts ∧ tritsToBytes ts = .error .overflow) ∨
       (e = .overflow ∧ ∃ a n ts, i = .absorb a n ∧ readTrits s.tmem a n.toNat = .ok ts ∧ n % 243 = 0 ∧
          absorbLoop (n.toNat / 243) ts s.ctx = .error .overflow) ∨
       (e = .overflow ∧ ∃ a n, i = .squeeze a n ∧
          squeezeLoop p (n.toNat / 243) a s.ctx s.tmem = .error .overflow) ∨
       (e = .overflow ∧ ∃ a bs, i = .b2t a ∧ s.buf.readCells 0 48 = .ok bs ∧
          bytesToTrits (blockOfBytes bs) = .error .overflow))) ∨
    (i = .new ∧ t = ((s.setCtx []).setPhase .fresh).setErr .ok) ∨
    (∃ a n ts c, i = .absorb a n ∧ 0 < n ∧ n % 243 = 0 ∧ a + n.toNat ≤ p.sizeT ∧
      s.phase ≠ .squeezing ∧ readTrits s.tmem a n.toNat = .ok ts ∧
      absorbLoop (n.toNat / 243) ts s.ctx = .ok c ∧ t = ((s.setCtx c).setPhase .absorbing).setErr .ok) ∨
    (∃ a n c m, i = .squeeze a n ∧ 0 < n ∧ n % 243 = 0 ∧ a + n.toNat ≤ p.sizeT ∧
      squeezeLoop p (n.toNat / 243) a s.ctx s.tmem = .ok (c, m) ∧
      t = (((s.setCtx c).setTmem m).setPhase .squeezing).setErr .ok) ∨
    (∃ a b n cs ts, i = .y2t a b n ∧ 0 ≤ n ∧ b + n.toNat ≤ p.sizeY ∧
      a + 3 * n.toNat ≤ p.sizeT ∧ s.ymem.readCells b n.toNat = .ok cs ∧ trytesToTrits cs = .ok ts ∧
      t = (s.setTmem (writeTrits s.tmem a ts)).setErr .ok) ∨
    (∃ a b n ts, i = .t2y a b n ∧ 0 ≤ n ∧ n % 3 = 0 ∧ a + n.toNat ≤ p.sizeT ∧
      b + n.toNat / 3 ≤ p.sizeY ∧ readTrits s.tmem a n.toNat = .ok ts ∧
      t = (s.setYmem (s.ymem.writeCells b (groupSymbols ts))).setErr .ok) ∨
    (∃ a ts b, i = .t2b a ∧ a + 243 ≤ p.sizeT ∧ readTrits s.tmem a 243 = .ok ts ∧
      tritsToBytes ts = .ok b ∧ t = (s.setBuf (s.buf.writeCells 0 (blockBytes b))).setErr .ok) ∨
    (∃ a bs ts, i = .b2t a ∧ a + 243 ≤ p.sizeT ∧ s.buf.readCells 0 48 = .ok bs ∧
      bytesToTrits (blockOfBytes bs) = .ok ts ∧ t = (s.setTmem (writeTrits s.tmem a ts)).setErr .ok) := by
  cases i with
  | new =>
    obtain rfl : _ = t := by simpa [commandWith, newWith_eq] using h
    exact .inr (.inl ⟨rfl, rfl⟩)
  | absorb a n =>
    simp only [commandWith] at h
    rcases absorbWith_cases p a n s with
      ⟨h1, h2⟩ | ⟨hn, hm, ⟨-, h2⟩ | ⟨ha, ⟨-, h2⟩ | ⟨hp, ⟨r, -, h2⟩ | ⟨ts, hr, ⟨e, he, h2⟩ | ⟨c, hc, h2⟩⟩⟩⟩⟩ <;>
      rw [h2] at h <;> simp only [Host.Outcome.next.injEq, reduceCtorEq] at h <;> subst h
    · exact .inl ⟨_, rfl, by decide, .inl ⟨rfl, a, n, .inl rfl, h1⟩⟩
    · exact .inl ⟨_, rfl, by decide, .inr (.inr (.inl ⟨rfl, by simp⟩))⟩
    · obtain rfl := absorbLoop_error _ _ _ _ he
      exact .inl ⟨_, rfl, by decide, by simp [hr, he]; omega⟩
    · exact .inr (.inr (.inl ⟨a, n, ts, c, rfl, hn, hm, ha, hp, hr, hc, rfl⟩))
  | squeeze a n =>
    simp only [commandWith] at h
    rcases squeezeWith_cases p a n s with
      ⟨h1, h2⟩ | ⟨hn, hm, ⟨-, h2⟩ | ⟨ha, ⟨e, he, h2⟩ | ⟨c, m, hc, h2⟩⟩⟩ <;>
      rw [h2] at h <;> simp only [Host.Outcome.next.injEq] at h <;> subst h
    · exact .inl ⟨_, rfl, by decide, .inl ⟨rfl, a, n, .inr rfl, h1⟩⟩
    · exact .inl ⟨_, rfl, by decide, .inr (.inr (.inl ⟨rfl, by simp⟩))⟩
    · obtain rfl := squeezeLoop_error _ _ _ _ _ _ he
      exact .inl ⟨_, rfl, by decide, by simp [he]⟩
    · exact .inr (.inr (.inr (.inl ⟨a, n, c, m, rfl, hn, hm, ha, hc, rfl⟩)))
  | y2t a b n =>
    simp only [commandWith] at h
    rcases y2tWith_cases p a b n s with
      ⟨-, h2⟩ | ⟨hn, hb, ha, ⟨r, -, h2⟩ | ⟨cs, hr, ⟨e, he, h2⟩ | ⟨ts, hc, h2⟩⟩⟩ <;>
      rw [h2] at h <;> simp only [Host.Outcome.next.injEq, reduceCtorEq] at h <;> subst h
    · exact .inl ⟨_, rfl, by decide, .inr (.inr (.inl ⟨rfl, by simp⟩))⟩
    · obtain ⟨rfl, -⟩ := trytesToTrits_error _ _ he
      exact .inl ⟨_, rfl, by decide, .inr (.inr (.inr (.inl ⟨rfl, a, b, n, cs, rfl, hn, hr, he⟩)))⟩
    · exact .inr (.inr (.inr (.inr (.inl ⟨a, b, n, cs, ts, rfl, hn, hb, ha, hr, hc, rfl⟩))))
  | t2y a b n =>
    simp only [commandWith] at h
    rcases t2yWith_cases p a b n s with
      ⟨h1, h2⟩ | ⟨hm, ⟨-, h2⟩ | ⟨hn, ha, hb, ⟨r, -, h2⟩ | ⟨ts, hr, -, h2⟩⟩⟩ <;>
      rw [h2] at h <;> simp only [Host.Outcome.next.injEq, reduceCtorEq] at h <;> subst h
    · exact .inl ⟨_, rfl, by decide, .inr (.inl ⟨rfl, a, b, n, rfl, h1⟩)⟩
    · exact .inl ⟨_, rfl, by decide, .inr (.inr (.inl ⟨rfl, by simp⟩))⟩
    · exact .inr (.inr (.inr (.inr (.inr (.inl ⟨a, b, n, ts, rfl, hn, hm, ha, hb, hr, rfl⟩)))))
  | t2b a =>
    simp only [commandWith] at h
    rcases t2bWith_cases p a s with
      ⟨-, h2⟩ | ⟨ha, ⟨r, -, h2⟩ | ⟨ts, hr, ⟨e, he, h2⟩ | ⟨b, hb, h2⟩⟩⟩ <;>
      rw [h2] at h <;> simp only [Host.Outcome.next.injEq, reduceCtorEq] at h <;> subst h
    · exact .inl ⟨_, rfl, by decide, .inr (.inr (.inl ⟨rfl, by simp⟩))⟩
    · obtain ⟨rfl, -⟩ := (tritsToBytes_error_iff _ _).1 he
      exact .inl ⟨_, rfl, by decide, .inr (.inr (.inr (.inr (.inl ⟨rfl, a, ts, rfl, hr, he⟩))))⟩
    · exact .inr (.inr (.inr (.inr (.inr (.inr (.inl ⟨a, ts, b, rfl, ha, hr, hb, rfl⟩))))))
  | b2t a =>
    simp only [commandWith] at h
    rcases b2tWith_cases p a s with
      ⟨-, h2⟩ | ⟨ha, ⟨r, -, h2⟩ | ⟨bs, hr, ⟨e, he, h2⟩ | ⟨ts, ht, h2⟩⟩⟩ <;>
      rw [h2] at h <;> simp only [Host.Outcome.next.injEq, reduceCtorEq] at h <;> subst h
    · exact .inl ⟨_, rfl, by decide, .inr (.inr (.inl ⟨rfl, by simp⟩))⟩
    · obtain rfl := bytesToTrits_error _ _ he
      exact .inl ⟨_, rfl, by decide, by simp [hr, he]⟩
    · exact .inr (.inr (.inr (.inr (.inr (.inr (.inr ⟨a, bs, ts, rfl, ha, hr, ht, rfl⟩))))))

/-- Where a command is refused, it is ABSORB in phase SQUEEZING, or a cell the command reads cannot be read. -/
theorem commandWith_refused_cases (p : Params) (i : Instr) (s : State) (r : Refusal) (h : commandWith p i s = .refused r) :
    (r = .absorbAfterSqueeze ∧ s.phase = .squeezing ∧ ∃ a n, i = .absorb a n) ∨
    (∃ a n, i = .absorb a n ∧ readTrits s.tmem a n.toNat = .error r) ∨
    (∃ a b n, i = .y2t a b n ∧ s.ymem.readCells b n.toNat = .error r) ∨
    (∃ a b n, i = .t2y a b n ∧ readTrits s.tmem a n.toNat = .error r) ∨
    (∃ a, i = .t2b a ∧ readTrits s.tmem a 243 = .error r) ∨
    (∃ a, i = .b2t a ∧ s.buf.readCells 0 48 = .error r) := by
  cases i with
  | new => simp [commandWith, newWith_eq] at h
  | absorb a n =>
    simp only [commandWith] at h
    rcases absorbWith_cases p a n s with
      ⟨-, h2⟩ | ⟨-, -, ⟨-, h2⟩ | ⟨-, ⟨hp, h2⟩ | ⟨-, ⟨r', hr, h2⟩ | ⟨ts, -, ⟨e, -, h2⟩ | ⟨c, -, h2⟩⟩⟩⟩⟩ <;>
      simp only [h2, Host.Outcome.refused.injEq, reduceCtorEq] at h
    · exact .inl ⟨h.symm, hp, a, n, rfl⟩
    · exact .inr (.inl ⟨a, n, rfl, h ▸ hr⟩)
  | squeeze a n =>
    simp only [commandWith] at h
    rcases squeezeWith_cases p a n s with
      ⟨-, h2⟩ | ⟨-, -, ⟨-, h2⟩ | ⟨-, ⟨e, -, h2⟩ | ⟨c, m, -, h2⟩⟩⟩ <;> simp [h2] at h
  | y2t a b n =>
    simp only [commandWith] at h
    rcases y2tWith_cases p a b n s with
      ⟨-, h2⟩ | ⟨-, -, -, ⟨r', hr, h2⟩ | ⟨cs, -, ⟨e, -, h2⟩ | ⟨ts, -, h2⟩⟩⟩ <;>
      simp only [h2, Host.Outcome.refused.injEq, reduceCtorEq] at h
    subst h
    exact .inr (.inr (.inl ⟨a, b, n, rfl, hr⟩))
  | t2y a b n =>
    simp only [commandWith] at h
    rcases t2yWith_cases p a b n s with
      ⟨-, h2⟩ | ⟨-, ⟨-, h2⟩ | ⟨-, -, -, ⟨r', hr, h2⟩ | ⟨ts, -, -, h2⟩⟩⟩ <;>
      simp only [h2, Host.Outcome.refused.injEq, reduceCtorEq] at h
    subst h
    exact .inr (.inr (.inr (.inl ⟨a, b, n, rfl, hr⟩)))
  | t2b a =>
    simp only [commandWith] at h
    rcases t2bWith_cases p a s with
      ⟨-, h2⟩ | ⟨-, ⟨r', hr, h2⟩ | ⟨ts, -, ⟨e, -, h2⟩ | ⟨b, -, h2⟩⟩⟩ <;>
      simp only [h2, Host.Outcome.refused.injEq, reduceCtorEq] at h
    subst h
    exact .inr (.inr (.inr (.inr (.inl ⟨a, rfl, hr⟩))))
  | b2t a =>
    simp only [commandWith] at h
    rcases b2tWith_cases p a s with
      ⟨-, h2⟩ | ⟨-, ⟨r', hr, h2⟩ | ⟨bs, -, ⟨e, -, h2⟩ | ⟨ts, -, h2⟩⟩⟩ <;>
      simp only [h2, Host.Outcome.refused.injEq, reduceCtorEq] at h
    subst h
    exact .inr (.inr (.inr (.inr (.inr ⟨a, rfl, hr⟩))))

end Sys2Proof.Machine
end

