-- ==== Sys2Proof/Laws/Instances.lean ====
section
/-! SUPPORT. What a step of one instance does to the list of instances: it advances that one. -/

namespace Sys2Proof.Machine

/-- A step of instance `k` advances that instance and leaves every other as it was. -/
theorem stepInstance_getElem? (k j : Nat) (ms : List State) :
    (stepInstance k ms)[j]? = if k = j then ms[j]?.map advanceInstance else ms[j]? := by
  simp only [stepInstance, List.getElem?_modify]
  split <;> simp

@[simp] theorem stepInstance_length (k : Nat) (ms : List State) : (stepInstance k ms).length = ms.length := by
  simp [stepInstance]

end Sys2Proof.Machine
end

