-- ==== Sys2Proof/Laws/PerInstr.lean ====
section
/-! SUPPORT. One family of statements about every command as syntax: the word the encoder writes has the command's opcode
in `OP`, 0 in every field the command does not use (30_encoding.md R72, R73), and, where the command is well formed, its
operands in the fields it does use. -/

namespace Sys2Proof.Laws.EncodedFields

/-- The fields of the word of a command. -/
def Statement (i : Instr) : Prop :=
  opField (encode i) = BitVec.ofNat 32 i.opcode ∧
  match i with
  | .new => aField (encode i) = 0 ∧ bField (encode i) = 0 ∧ nField (encode i) = 0
  | .absorb a n => bField (encode i) = 0 ∧ (i.wellFormed = true → aField (encode i) = a ∧ nField (encode i) = n)
  | .squeeze a n => bField (encode i) = 0 ∧ (i.wellFormed = true → aField (encode i) = a ∧ nField (encode i) = n)
  | .y2t a b n => i.wellFormed = true → aField (encode i) = a ∧ bField (encode i) = b ∧ nField (encode i) = n
  | .t2y a b n => i.wellFormed = true → aField (encode i) = a ∧ bField (encode i) = b ∧ nField (encode i) = n
  | .t2b a => bField (encode i) = 0 ∧ nField (encode i) = 0 ∧ (i.wellFormed = true → aField (encode i) = a)
  | .b2t a => bField (encode i) = 0 ∧ nField (encode i) = 0 ∧ (i.wellFormed = true → aField (encode i) = a)

/-- A length that fits its field is the length the field holds. -/
theorem toInt_ofInt_of_lengthFits (n : Int) (h : lengthFits n = true) : (BitVec.ofInt 32 n).toInt = n := by
  simp only [lengthFits, decide_eq_true_eq] at h
  rw [BitVec.toInt_ofInt]
  exact Int.bmod_eq_of_le (by omega) (by omega)

/-- An offset that fits its field is the offset the field holds. -/
theorem mod_of_offsetFits (a : Nat) (h : offsetFits a = true) : a % 2 ^ 32 = a := by
  simp only [offsetFits, decide_eq_true_eq] at h
  exact Nat.mod_eq_of_lt h

theorem new : Statement .new := by
  simp [Statement, encode, Instr.opcode]

theorem absorb (a : Nat) (n : Int) : Statement (.absorb a n) := by
  refine ⟨by simp [encode, Instr.opcode], by simp [encode], fun h => ?_⟩
  simp only [Instr.wellFormed, Bool.and_eq_true] at h
  simp only [encode, aField_commandWord, nField_commandWord]
  exact ⟨mod_of_offsetFits a h.1, toInt_ofInt_of_lengthFits n h.2⟩

theorem squeeze (a : Nat) (n : Int) : Statement (.squeeze a n) := by
  refine ⟨by simp [encode, Instr.opcode], by simp [encode], fun h => ?_⟩
  simp only [Instr.wellFormed, Bool.and_eq_true] at h
  simp only [encode, aField_commandWord, nField_commandWord]
  exact ⟨mod_of_offsetFits a h.1, toInt_ofInt_of_lengthFits n h.2⟩

theorem y2t (a b : Nat) (n : Int) : Statement (.y2t a b n) := by
  refine ⟨by simp [encode, Instr.opcode], fun h => ?_⟩
  simp only [Instr.wellFormed, Bool.and_eq_true] at h
  simp only [encode, aField_commandWord, bField_commandWord, nField_commandWord]
  exact ⟨mod_of_offsetFits a h.1.1, mod_of_offsetFits b h.1.2, toInt_ofInt_of_lengthFits n h.2⟩

theorem t2y (a b : Nat) (n : Int) : Statement (.t2y a b n) := by
  refine ⟨by simp [encode, Instr.opcode], fun h => ?_⟩
  simp only [Instr.wellFormed, Bool.and_eq_true] at h
  simp only [encode, aField_commandWord, bField_commandWord, nField_commandWord]
  exact ⟨mod_of_offsetFits a h.1.1, mod_of_offsetFits b h.1.2, toInt_ofInt_of_lengthFits n h.2⟩

theorem t2b (a : Nat) : Statement (.t2b a) := by
  refine ⟨by simp [encode, Instr.opcode], by simp [encode], by simp [encode], fun h => ?_⟩
  simp only [encode, aField_commandWord]
  exact mod_of_offsetFits a h

theorem b2t (a : Nat) : Statement (.b2t a) := by
  refine ⟨by simp [encode, Instr.opcode], by simp [encode], by simp [encode], fun h => ?_⟩
  simp only [encode, aField_commandWord]
  exact mod_of_offsetFits a h

end Sys2Proof.Laws.EncodedFields
end

