-- ==== Sys2Proof/Tests/Slice0.lean ====
section
/-! SUPPORT. Checks of the model: ill-formed commands, words written out by hand, one-step vectors of
95_test_vectors.md, and, for every obligation with hypotheses, a theorem `wit_…` that shows a state and operands that
meet them together. Where a vector needs the primitive it uses `H_TOY` (95_test_vectors.md V1) with 1024 and 512 cells
(V9). -/

namespace Sys2Proof.Machine.Tests

/-- `H_TOY` (95_test_vectors.md V1). -/
def toyHash (blocks : List Block) : Block := blocks.foldl (fun acc b => 3 * (acc + b) + 1) 0

/-- The parameters of the vectors, with the literal policy for the top trit. -/
def toy : Params where
  hash := toyHash
  squeezeTop := .asConverted
  sizeT := 1024
  sizeY := 512

/-- The same with the top trit forced to 0. -/
def toyForced : Params := { toy with squeezeTop := .forcedZero }

/-- The reset state with trits written from a cell on. -/
def withTrits (a : Nat) (ts : List Trit) : State := State.reset.setTmem (writeTrits [] a ts)

/-- The reset state with the cells from a cell on listed as they stand, without the writes. -/
def holding (a : Nat) (ts : List Trit) : State :=
  State.reset.setTmem ((List.range ts.length).zip ts |>.map fun x => (a + x.1, x.2.pattern))

/-- The reset state with symbols written from a cell on. -/
def withSymbols (b : Nat) (cs : List Byte) : State := State.reset.setYmem (Memory.writeCells [] b cs)

/-- The reset state with BUF written. -/
def withBuf (bs : List Byte) : State := State.reset.setBuf (Memory.writeCells [] 0 bs)

/-- A chunk that is 0 but for its first trits. -/
def chunk (ts : List Trit) : List Trit := ts ++ List.replicate (243 - ts.length) .zero

/-- A chunk that is 0 but for its top trit. -/
def topChunk (t : Trit) : List Trit := List.replicate 242 .zero ++ [t]

/-- What a cell of the next state holds: none where there is no next state. -/
def after (r : Result) (f : State → Bool) : Bool :=
  match r with
  | .next t => f t
  | .fault _ => false
  | .refused _ => false

/-- Whether an outcome is a refusal for the reason. -/
def refusedFor (r : Result) (e : Refusal) : Bool :=
  match r with
  | .refused e' => e' == e
  | .next _ => false
  | .fault _ => false

/-! ## Commands that no word can say (30_encoding.md R71) -/

theorem test_wf_rejects_offset_a : (Instr.absorb (2 ^ 32) 243).wellFormed = false := by decide
theorem test_wf_rejects_offset_a_alone : (Instr.t2b (2 ^ 32)).wellFormed = false := by decide
theorem test_wf_rejects_offset_b : (Instr.y2t 0 (2 ^ 32) 0).wellFormed = false := by decide
theorem test_wf_rejects_length_high : (Instr.squeeze 0 (2 ^ 31)).wellFormed = false := by decide
theorem test_wf_rejects_length_low : (Instr.t2y 0 0 (-(2 ^ 31) - 1)).wellFormed = false := by decide
theorem test_wf_accepts_bounds : (Instr.y2t (2 ^ 32 - 1) (2 ^ 32 - 1) (-(2 ^ 31))).wellFormed = true := by decide

/-! ## Words written out from the tables of 30_encoding.md R70 and R72: `N`, `B`, `A`, `OP`, eight hexadecimal digits
each. Fields the command does not use hold ones (R73). -/

theorem test_decode_new : decode 0xFFFFFFFFFFFFFFFFFFFFFFFF00000001#128 = .ok .new := by decide
theorem test_decode_absorb : decode 0x000001E6FFFFFFFF0000000500000002#128 = .ok (.absorb 5 486) := by decide
theorem test_decode_squeeze : decode 0x80000000000000008000000000000003#128 = .ok (.squeeze (2 ^ 31) (-(2 ^ 31))) := by
  decide
theorem test_decode_y2t : decode 0x00000051000000070000000300000004#128 = .ok (.y2t 3 7 81) := by decide
theorem test_decode_t2y : decode 0xFFFFFFFDFFFFFFFF0000000A00000005#128 = .ok (.t2y 10 (2 ^ 32 - 1) (-3)) := by decide
theorem test_decode_t2b : decode 0xFFFFFFFFFFFFFFFF0000030D00000006#128 = .ok (.t2b 781) := by decide
theorem test_decode_b2t : decode 0x0000000000000000FFFFFFFF00000007#128 = .ok (.b2t (2 ^ 32 - 1)) := by decide
theorem test_decode_op_zero : decode 0x00000000000000000000000000000000#128 = .error (.illegalOpcode 0) := by decide
theorem test_decode_op_eight : decode 0x00000000000000000000000000000008#128 = .error (.illegalOpcode 8) := by decide
theorem test_decode_op_whole_field : decode 0x00000000000000000000000000010001#128 = .error (.illegalOpcode 0x10001) := by
  decide
theorem test_decodeTableWord : decodeTableWord 128 0x00000051000000070000000300000004 = some (.y2t 3 7 81) := by decide
/-- 30_encoding.md R84, R85: hexadecimal, a minus sign, blanks, a comment, the pseudo-instructions; and lines that say no
command. -/
theorem test_read_command :
    readCommand "  SQUEEZE 0x1F, -243 ; squeeze" = some (.squeeze 31 (-243)) ∧ readCommand "SQUEEZE" = some (.squeeze 0 243) ∧
    readCommand "SQUEEZE 7" = some (.squeeze 7 243) ∧ readCommand "Y2T 0,100 , 486" = some (.y2t 0 100 486) ∧
    readCommand "; NEW" = none ∧ readCommand "ABSORB 0" = none ∧ readCommand "T2B 4294967296" = none ∧
    readCommand "T2B 0x" = none ∧ readCommand "T2B -1" = none := by
  decide +kernel

/-! ## One step of each command (95_test_vectors.md) -/

/-- 42_sponge.md R151: the old context and phase are gone, the cells stay. -/
theorem test_new : after (newWith { withTrits 3 [.pos] with ctx := [7#384], phase := .squeezing, err := .overflow })
    (fun t => t.ctx == [] && t.phase == .fresh && t.err == .ok && t.tmem == [(3, 0b01#2)]) = true := by decide

/-- 42_sponge.md R152, example: `A99..9` is one block of value 1; the cells stay. -/
theorem test_absorb : after (absorbWith toy 0 243 (holding 0 (chunk [.pos])))
    (fun t => t.ctx == [1#384] && t.phase == .absorbing && t.tmem == (holding 0 (chunk [.pos])).tmem) = true := by
  decide +kernel

/-- 95_test_vectors.md E14 and E11: after a SQUEEZE, a good length is refused before the cells are looked at, a bad one is
an error. -/
theorem test_absorb_squeezing :
    refusedFor (absorbWith toy 781 243 (State.reset.setPhase .squeezing)) .absorbAfterSqueeze = true ∧
    after (absorbWith toy 0 0 (State.reset.setPhase .squeezing)) (fun t => t.err == .invalidInput) = true := by
  decide

/-- 95_test_vectors.md S-T2: input of value 1, first digest 4, so trits 1, 1, 0, ..; the context is the complement, −5. -/
theorem test_squeeze : after (squeezeWith toyForced 0 243 (State.reset.setCtx [1#384]))
    (fun t => t.ctx == [-5#384] && t.phase == .squeezing &&
      t.tmem == (holding 0 (chunk [.pos, .pos])).tmem) = true := by
  decide +kernel

/-- 95_test_vectors.md S-T5: a digest of 2^383 − 1 has top trit +1, and the policy decides it. -/
theorem test_squeeze_top :
    ((bytesToTrits (2 ^ 383 - 1)).map (fun t => (topPolicy toy t)[242]?)).toOption = some (some .pos) ∧
    ((bytesToTrits (2 ^ 383 - 1)).map (fun t => (topPolicy toyForced t)[242]?)).toOption = some (some .zero) := by
  decide +kernel

/-- 40_tryte_lookup.md R104, example: `AZ` to cells 10 to 15. -/
theorem test_y2t : after (y2tWith toy 10 0 2 (withSymbols 0 [0x41#8, 0x5A#8]))
    (fun t => t.tmem == [(10, 0b01#2), (11, 0b00#2), (12, 0b00#2), (13, 0b11#2), (14, 0b00#2), (15, 0b00#2)] &&
      t.err == .ok) = true := by decide

/-- 95_test_vectors.md E34 and E35: an unwritten cell is refused before a symbol is judged. -/
theorem test_y2t_invalid :
    refusedFor (y2tWith toy 0 0 2 (withSymbols 0 [0x61#8])) .unwrittenCell = true ∧
    after (y2tWith toy 0 0 2 (withSymbols 0 [0x4B#8, 0x61#8])) (fun t => t.err == .invalidSymbol && t.tmem == []) = true := by
  decide

/-- 40_tryte_lookup.md R105, example: `NM` to cells 7 and 8. -/
theorem test_t2y : after (t2yWith toy 0 7 6 (withTrits 0 [.neg, .neg, .neg, .pos, .pos, .pos]))
    (fun t => t.ymem == [(7, 0x4E#8), (8, 0x4D#8)] && t.err == .ok) = true := by decide

/-- 95_test_vectors.md E21, E22 and E29. -/
theorem test_t2y_errors :
    after (t2yWith toy 0 0 (-1) State.reset) (fun t => t.err == .invalidLength) = true ∧
    after (t2yWith toy 0 0 (-3) State.reset) (fun t => t.err == .badRange) = true ∧
    after (t2yWith toy 1025 0 0 State.reset) (fun t => t.err == .badRange) = true := by decide

/-- 41_base_conversion.md R132, example: `MI9..9` is 256; `BUF[46]` = 1 and the other bytes are 0. -/
theorem test_t2b : after (t2bWith toy 0 (holding 0 (chunk [.pos, .pos, .pos, .zero, .zero, .pos])))
    (fun t => t.buf == (List.range 48).map (fun j => (j, if j = 46 then 1#8 else 0#8)) && t.err == .ok) = true := by
  decide +kernel

/-- 95_test_vectors.md T14 and T9: the same top trit, with a value that does not fit and with one that does. -/
theorem test_converter_overflow : tritsToBytes (topChunk .pos) = .error .overflow ∧
    tritsToBytes (List.replicate 242 .neg ++ [.pos]) =
      .ok 0x5e69ebefa87fabdfaa06a805a9f6808b48bbae3679a4c70250979d570c24486e3ade00d91484504f9f007669a5ce8965#384 := by
  decide +kernel

/-- 41_base_conversion.md R133, example: value 2 is −1, 1, 0, ... -/
theorem test_b2t : after (b2tWith toy 0 (withBuf (List.replicate 47 0#8 ++ [2#8])))
    (fun t => t.tmem == (holding 0 (chunk [.neg, .pos])).tmem && t.err == .ok) = true := by decide +kernel

/-- 95_test_vectors.md B6: fill 0x80 gives the trits of `NDD..YYU`; here its first symbols and its last. -/
theorem test_converter_fill :
    ((bytesToTrits (blockOfBytes (List.replicate 48 0x80#8))).map
      (fun t => (groupSymbols (t.take 9), groupSymbols (t.drop 234)))).toOption =
    some ([0x4E#8, 0x44#8, 0x44#8], [0x59#8, 0x59#8, 0x55#8]) := by decide +kernel

/-- 95_test_vectors.md E42: one byte of BUF unwritten. -/
theorem test_b2t_unwritten : refusedFor (b2tWith toy 0 (withBuf (List.replicate 47 0#8))) .unwrittenCell = true := by decide

/-- 10_state.md R27: `ERR` in bits 3:0, `PHASE` in bits 5:4. -/
theorem test_status : statusWord { State.reset with phase := .squeezing, err := .badRange } = 0x26#32 := by decide

/-- 10_state.md R41: a host write, and a read of the cell. -/
theorem test_host_cell : after (andThen (hostWriteT toy 1023 .neg State.reset) (hostReadT toy 1023))
    (fun t => t.response == some (.trit .neg)) = true ∧
    refusedFor (hostWriteT toy 1024 .neg State.reset) .hostIndexOutOfRange = true := by decide

/-- 95_test_vectors.md E1, E2: the word is illegal, whatever its fields; the step changes `ERR` alone. -/
theorem test_step_illegal :
    after (step (State.reset.withFetchWord 128 0x000000F3000000000000000000000009))
      (fun t => t == State.reset.setErr .illegalCommand) = true := by decide

/-- A step runs the word the host issues: NEW from a state with something to lose. -/
theorem test_step_new : after (step ({ State.reset with ctx := [1#384], phase := .absorbing }.withFetchWord 128 1))
    (fun t => t == State.reset) = true := by decide

/-- 60_exceptions.md R231: one instance is refused, the other reads its STATUS and is good. -/
theorem test_instances :
    (runInstances [0, 1] [State.reset.setPending [.host (.readBuf 0)], State.reset.setPending [.host .readStatus]]).map
      (fun s => (s.refused, s.response)) = [(true, none), (false, some (.status 0))] := by decide

/-! ## Witnesses: for each obligation with hypotheses, a state and operands that meet them together. `Config.params` has at
least 243 cells of TMEM (00_scope.md R7), so a chunk at cell 0 and a chunk at the end are in range; YMEM may have none, so a
witness with symbols names the least size it needs where the statement is about `exec`. -/

theorem topChunk_length (t : Trit) : (topChunk t).length = 243 := by
  cases t <;> decide +kernel

/-- Writing trits leaves the phase of the reset state. -/
theorem withTrits_phase (a : Nat) (ts : List Trit) : (withTrits a ts).phase ≠ .squeezing := by
  simp [withTrits, State.setTmem, State.reset]

/-- The cells written hold the trits written. -/
theorem withTrits_holds (a : Nat) (ts : List Trit) : HoldsTrits (withTrits a ts).tmem a ts :=
  holdsTrits_writeTrits [] a ts

/-- Nothing but trits has been written. -/
theorem withTrits_allTrits (a : Nat) (ts : List Trit) : allTrits (withTrits a ts).tmem :=
  allTrits_writeTrits [] a ts (fun _ => by simp)

/-- A cell past those written is unwritten. -/
theorem withTrits_above (a : Nat) (ts : List Trit) (c : Nat) (h : a + ts.length ≤ c) :
    (withTrits a ts).tmem.read c = none :=
  (read_writeTrits [] a ts c).trans (by rw [if_neg (by omega)]; rfl)

/-- Writing trits leaves the context of the reset state. -/
theorem withTrits_ctx (a : Nat) (ts : List Trit) : (withTrits a ts).ctx = [] := rfl

/-- Every machine has room for one chunk. -/
theorem chunk_fits : 243 ≤ Config.params.sizeT := Nat.le_add_left 243 _

/-- The base of the last chunk of TMEM. -/
def lastChunk : Nat := Config.params.sizeT - 243

/-- A chunk at the end of TMEM ends there exactly. -/
theorem lastChunk_fits : lastChunk + 243 * 1 = Config.params.sizeT := by
  have := chunk_fits
  unfold lastChunk
  omega

theorem wit_WorkedEncodings : ("T2B 0", 6#128, Instr.t2b 0) ∈ [("T2B 0", 6#128, Instr.t2b 0)] := by decide

theorem wit_DecodeOfEncode : (Instr.y2t (2 ^ 32 - 1) 0 (2 ^ 31 - 1)).wellFormed = true ∧
    (Instr.squeeze 0 (-(2 ^ 31))).wellFormed = true := by decide

theorem wit_UnusedFieldsIgnored : decode 0xFFFFFFFFFFFFFFFFFFFFFFFF00000006#128 = .ok (.t2b (2 ^ 32 - 1)) ∧
    decode 0xFFFFFFFFFFFFFFFFFFFFFFFF00000001#128 = .ok .new := by decide

theorem wit_IllegalOpcodeOnlySetsErr :
    ((0#128).toNat % 2 ^ 32 = 0 ∧ 7 < (8#128).toNat % 2 ^ 32 ∧ 7 < (2 ^ 128 - 1 : BitVec 128).toNat % 2 ^ 32) ∧
    (State.reset.withFetchWord 128 8).pending = .host (.issue 8#128) :: [] := ⟨by decide +kernel, rfl⟩

theorem wit_StepRunsDecodedCommand : (State.reset.withFetchWord 128 2).pending = .host (.issue 2#128) :: [] ∧
    decode 2#128 = .ok (.absorb 0 0) := by decide

theorem wit_StepTakesTheNextHostAction : State.reset.pending = [] ∧
    (State.reset.setPending [.host .readStatus]).pending = .host .readStatus :: [] := by decide

theorem wit_HardwareResetEvent : ((withTrits 0 [.pos]).setPending [.reset]).pending = .reset :: [] := by decide

/-- A state whose memories are sound, with something in each. -/
def soundState : State :=
  { State.reset with
    tmem := [(0, 0b11#2)], buf := [(47, 5#8)], ctx := [1#384], phase := .absorbing, pending := [.host .readStatus] }

theorem wit_StepKeepsMemoriesSound : MemoriesSound soundState ∧
    ∃ t, step soundState = .next t ∧ t.tmem = [(0, 0b11#2)] := by
  refine ⟨⟨rfl, rfl, rfl, fun a h => ?_, fun _ _ => rfl, fun a h => ?_, fun a => ?_⟩, _, rfl, rfl⟩
  · have := chunk_fits
    simp only [soundState, Memory.read_cons, Memory.read_nil]
    rw [if_neg (by omega)]
  · simp only [soundState, Memory.read_cons, Memory.read_nil]
    rw [if_neg (by omega)]
  · simp only [soundState, Memory.read_cons, Memory.read_nil]
    split <;> decide

theorem wit_StepKeepsEngineSound :
    EngineSound State.reset ∧ EngineSound soundState ∧
    EngineSound { soundState with phase := .squeezing, ctx := [~~~(Config.params.hash [1#384])] } ∧
    ∃ t, step soundState = .next t :=
  ⟨rfl, by simp [EngineSound, soundState], ⟨_, rfl⟩, _, rfl⟩

theorem wit_RefusalIsNeverCleared : (∃ t, step soundState = .next t) ∧ (run [.host (.readBuf 48)]).refused = true :=
  ⟨⟨_, rfl⟩, by decide⟩

theorem wit_GoodRunMeansNothingRefused : 0 < [Event.host .readStatus, .reset].length ∧
    1 < [Event.host .readStatus, .reset].length ∧ GoodRun [.host .readStatus, .reset] := ⟨by decide, by decide, rfl⟩

theorem wit_StatusCodes : soundState.pending = .host .readStatus :: [] := rfl

theorem wit_ByteChunkIsBigEndian : (List.replicate 48 0x80#8).length = 48 := by decide

theorem wit_RenderAndValueInverse :
    (-(2 ^ 383) ≤ (-(2 ^ 383) : Int) ∧ (-(2 ^ 383) : Int) ≤ 2 ^ 383 - 1) ∧
    (-(2 ^ 383) ≤ (2 ^ 383 - 1 : Int) ∧ (2 ^ 383 - 1 : Int) ≤ 2 ^ 383 - 1) := by decide +kernel

theorem wit_TritValueRange : ∀ t : Trit, (topChunk t).length = 243 ∧ (topChunk t)[242]? = some t :=
  fun t => ⟨topChunk_length t, by cases t <;> decide +kernel⟩

theorem wit_AnyDigitProcedureAgrees : (5 : Int) = Trit.toInt .neg + 3 * 2 ∧ (5 : Int).tmod 3 = 2 ∧
    (-5 : Int).tmod 3 = -2 ∧ (-4 : Int).tmod 3 ≠ 2 ∧ (-4 : Int).tmod 3 ≠ -2 ∧ (-4 : Int).tmod 3 = -1 := by decide

theorem wit_BalancedTernaryUnique : |(4 : Int)| ≤ (3 ^ 2 - 1) / 2 ∧ (3 ^ 2 - 1) / 2 < |(-5 : Int)| ∧
    |(0 : Int)| ≤ (3 ^ 0 - 1) / 2 ∧ [Trit.pos, Trit.pos].length = 2 := by decide

theorem wit_ConverterBijection : bytesToTrits 1#384 = .ok (chunk [.pos]) ∧ (chunk [.pos]).length = 243 := by
  decide +kernel

theorem wit_OverflowReachability : (chunk [.pos]).length = 243 ∧ (chunk [.pos])[242]? = some .zero ∧
    (∃ t, exec (.absorb 0 0) State.reset = .next t) ∧ ∃ t, exec (.squeeze 0 0) State.reset = .next t :=
  ⟨by decide +kernel, by decide +kernel, ⟨_, rfl⟩, _, rfl⟩

theorem wit_ConverterRoundTrips : (chunk [.pos]).length = 243 ∧ (chunk [.pos])[242]? = some .zero ∧
    tritsToBytes (chunk [.pos]) = .ok 1#384 ∧ blockValue 1#384 ≠ -(2 ^ 383) := by decide +kernel

theorem wit_AlphabetValues : 0 < 27 ∧ 13 < 27 ∧ 26 < 27 := by decide

theorem wit_NegationPairsSymbols : symbolAt 0 = 0x39#8 ∧ symbolAt 1 = 0x41#8 ∧ symbolAt 26 = 0x5A#8 ∧ 26 < 27 := by decide

theorem wit_LookupTablesInverse : symToTriple 0x4E#8 = some (.neg, .neg, .neg) := by decide

theorem wit_TryteStringsRoundTrip : trytesToTrits [0x41#8, 0x5A#8] = .ok [.pos, .zero, .zero, .neg, .zero, .zero] ∧
    trytesToTrits [] = .ok [] ∧ [Trit.pos, Trit.zero, Trit.zero].length % 3 = 0 := by decide

theorem wit_NewRecreatesOnlyTheEngine : (∃ t, exec .new soundState = .next t) ∧ soundState.tmem.read 0 ≠ none ∧
    soundState.buf.read 47 ≠ none := ⟨⟨_, rfl⟩, by decide, by decide⟩

theorem wit_AbsorbFeedsChunksInOrder : (topChunk .pos).length = 243 * 1 ∧ lastChunk + 243 * 1 ≤ Config.params.sizeT ∧
    (withTrits lastChunk (topChunk .pos)).phase ≠ .squeezing ∧
    HoldsTrits (withTrits lastChunk (topChunk .pos)).tmem lastChunk (topChunk .pos) :=
  ⟨topChunk_length _, lastChunk_fits.le, withTrits_phase _ _, withTrits_holds _ _⟩

theorem wit_AbsorbIgnoresTopTrits : 0 + 243 * 1 ≤ Config.params.sizeT ∧
    (topChunk .pos).length = 243 * 1 ∧ (topChunk .neg).length = 243 * 1 ∧
    (∀ i, i % 243 ≠ 242 → (topChunk .pos)[i]? = (topChunk .neg)[i]?) ∧
    HoldsTrits (withTrits 0 (topChunk .pos)).tmem 0 (topChunk .pos) ∧
    HoldsTrits (withTrits 0 (topChunk .neg)).tmem 0 (topChunk .neg) ∧
    (withTrits 0 (topChunk .pos)).phase ≠ .squeezing ∧ (withTrits 0 (topChunk .neg)).phase ≠ .squeezing ∧
    (withTrits 0 (topChunk .pos)).ctx = (withTrits 0 (topChunk .neg)).ctx := by
  refine ⟨chunk_fits, topChunk_length _, topChunk_length _, fun i hi => ?_, withTrits_holds _ _,
    withTrits_holds _ _, withTrits_phase _ _, withTrits_phase _ _,
    (withTrits_ctx _ _).trans (withTrits_ctx _ _).symm⟩
  have : i ≠ 242 := fun h => hi (by omega)
  simp only [topChunk, List.getElem?_append, List.length_replicate]
  split
  · rfl
  · rw [List.getElem?_eq_none (by simp; omega), List.getElem?_eq_none (by simp; omega)]

theorem wit_AbsorbSplits : 538 + 243 * (1 + 1) ≤ toy.sizeT := by decide

theorem wit_AbsorbRejectsBadLength : ((0 : Int) ≤ 0 ∨ (0 : Int) % 243 ≠ 0) ∧ ((244 : Int) ≤ 0 ∨ (244 : Int) % 243 ≠ 0) := by
  decide

theorem wit_AbsorbAfterSqueezeRefused : (State.reset.setPhase .squeezing).phase = .squeezing ∧
    (¬lengthFails (.absorb 0 243) ∧ ¬rangeFails Config.params (.absorb 0 243)) ∧ lengthFails (.absorb 0 0) ∧
    (¬lengthFails (.absorb Config.params.sizeT 243) ∧ rangeFails Config.params (.absorb Config.params.sizeT 243)) := by
  have := chunk_fits
  refine ⟨rfl, ⟨by simp [lengthFails], ?_⟩, by simp [lengthFails], by simp [lengthFails], ?_⟩ <;>
    simp only [rangeFails] <;> omega

theorem wit_SqueezeRejectsBadLength : (0 : Int) ≤ 0 ∧ (0 : Int) < 1 ∧ (1 : Int) % 243 ≠ 0 := by decide

theorem wit_SqueezeWritesDigestsInOrder : 0 < 1 ∧ lastChunk + 243 * 1 ≤ Config.params.sizeT :=
  ⟨by decide, lastChunk_fits.le⟩

theorem wit_ReseedComplementsDigest : 781 + 243 ≤ toy.sizeT := by decide

theorem wit_SqueezeSplits : 538 + 243 * (1 + 1) ≤ toy.sizeT := by decide

theorem wit_TopPolicyDecidesOnlyTopTrits : toyForced.hash = toy.hash ∧ toyForced.sizeT = toy.sizeT ∧
    toy.squeezeTop = .asConverted ∧ toyForced.squeezeTop = .forcedZero ∧ 538 + 243 * 2 ≤ toy.sizeT ∧
    bytesToTrits 1#384 = .ok (chunk [.pos]) := ⟨rfl, rfl, rfl, rfl, by decide, by decide +kernel⟩

theorem wit_FreshSqueezeUsesEmptyContext : lastChunk + 243 ≤ Config.params.sizeT := lastChunk_fits.le

theorem wit_HashIsDeterministic : 0 + 243 * 1 ≤ Config.params.sizeT ∧ lastChunk + 243 * 1 ≤ Config.params.sizeT ∧
    (topChunk .pos).length = 243 * 1 ∧ (topChunk .neg).length = 243 * 1 ∧
    (∀ i, i % 243 ≠ 242 → (topChunk .pos)[i]? = (topChunk .neg)[i]?) ∧
    HoldsTrits (withTrits 0 (topChunk .pos)).tmem 0 (topChunk .pos) ∧
    HoldsTrits (withTrits lastChunk (topChunk .neg)).tmem lastChunk (topChunk .neg) :=
  ⟨chunk_fits, lastChunk_fits.le, topChunk_length _, topChunk_length _, wit_AbsorbIgnoresTopTrits.2.2.2.1, withTrits_holds _ _,
    withTrits_holds _ _⟩

/-- With no symbol, on every machine. -/
theorem wit_Y2tWritesTriples : Config.params.sizeY + ([] : List Byte).length ≤ Config.params.sizeY ∧
    0 + 3 * ([] : List Byte).length ≤ Config.params.sizeT ∧ HoldsCells State.reset.ymem Config.params.sizeY [] ∧
    ∀ c ∈ ([] : List Byte), symToTriple c ≠ none :=
  ⟨by simp, by simp, fun i h => absurd h (by simp), by simp⟩

/-- With symbols, on every machine that has the cells. -/
theorem wit_Y2tWritesTriples_symbols (h : 2 ≤ Config.params.sizeY) :
    0 + [0x41#8, 0x5A#8].length ≤ Config.params.sizeY ∧ 237 + 3 * [0x41#8, 0x5A#8].length ≤ Config.params.sizeT ∧
    HoldsCells (withSymbols 0 [0x41#8, 0x5A#8]).ymem 0 [0x41#8, 0x5A#8] ∧
    ∀ c ∈ [0x41#8, 0x5A#8], symToTriple c ≠ none :=
  ⟨h, chunk_fits, holdsCells_writeCells _ _ _, by decide⟩

theorem wit_Y2tInvalidSymbol : 510 + [0x4B#8, 0x61#8].length ≤ toy.sizeY ∧ 1018 + 3 * [0x4B#8, 0x61#8].length ≤ toy.sizeT ∧
    HoldsCells (withSymbols 510 [0x4B#8, 0x61#8]).ymem 510 [0x4B#8, 0x61#8] ∧
    (∃ c ∈ [0x4B#8, 0x61#8], symToTriple c = none) ∧
    ∃ t, commandWith toy (.y2t 0 510 2) (withSymbols 510 [0x4B#8, 0x61#8]) = .next t ∧ t.err = .invalidSymbol :=
  ⟨by decide, by decide, holdsCells_writeCells _ _ _, by decide, _, rfl, rfl⟩

/-- With no trit, on every machine. -/
theorem wit_T2yWritesSymbols : ([] : List Trit).length % 3 = 0 ∧
    Config.params.sizeT + ([] : List Trit).length ≤ Config.params.sizeT ∧
    Config.params.sizeY + ([] : List Trit).length / 3 ≤ Config.params.sizeY ∧
    HoldsTrits State.reset.tmem Config.params.sizeT [] :=
  ⟨by decide, by simp, by simp, fun i h => absurd h (by simp)⟩

/-- With trits, on every machine that has a cell for the symbol. -/
theorem wit_T2yWritesSymbols_trits (h : 1 ≤ Config.params.sizeY) : [Trit.neg, Trit.neg, Trit.neg].length % 3 = 0 ∧
    240 + [Trit.neg, Trit.neg, Trit.neg].length ≤ Config.params.sizeT ∧
    0 + [Trit.neg, Trit.neg, Trit.neg].length / 3 ≤ Config.params.sizeY ∧
    HoldsTrits (withTrits 240 [.neg, .neg, .neg]).tmem 240 [.neg, .neg, .neg] :=
  ⟨by decide, chunk_fits, h, withTrits_holds _ _⟩

theorem wit_T2yInvalidLength : (-1 : Int) % 3 ≠ 0 ∧
    ∃ t, exec (.t2y 0 0 (-1)) State.reset = .next t ∧ t.err = .invalidLength := ⟨by decide, _, rfl, rfl⟩

theorem wit_T2bConvertsChunk : lastChunk + 243 ≤ Config.params.sizeT ∧
    (∀ ts : List Trit, HoldsTrits (withTrits lastChunk ts).tmem lastChunk ts) ∧
    (topChunk .pos).length = 243 ∧ 2 ^ 383 - 1 < tritValue (topChunk .pos) ∧
    (topChunk .neg).length = 243 ∧ tritValue (topChunk .neg) < -(2 ^ 383) ∧
    (digits 243 (2 ^ 383 - 1)).1.length = 243 ∧ tritValue (digits 243 (2 ^ 383 - 1)).1 = 2 ^ 383 - 1 ∧
    (digits 243 (-(2 ^ 383))).1.length = 243 ∧ tritValue (digits 243 (-(2 ^ 383))).1 = -(2 ^ 383) :=
  ⟨lastChunk_fits.le, fun _ => withTrits_holds _ _, by decide +kernel, by decide +kernel, by decide +kernel,
    by decide +kernel, by decide +kernel, by decide +kernel, by decide +kernel, by decide +kernel⟩

theorem wit_B2tConvertsBuf : lastChunk + 243 ≤ Config.params.sizeT ∧ (List.replicate 48 0x80#8).length = 48 ∧
    HoldsCells (withBuf (List.replicate 48 0x80#8)).buf 0 (List.replicate 48 0x80#8) :=
  ⟨lastChunk_fits.le, by decide, holdsCells_writeCells _ _ _⟩

theorem wit_B2tThenT2bRestoresBuf : 0 + 243 ≤ Config.params.sizeT ∧ (List.replicate 48 0xFF#8).length = 48 ∧
    HoldsCells (withBuf (List.replicate 48 0xFF#8)).buf 0 (List.replicate 48 0xFF#8) :=
  ⟨chunk_fits, by decide, holdsCells_writeCells _ _ _⟩

theorem wit_Y2tThenT2yCopiesString : 0 + [0x41#8, 0x5A#8].length ≤ toy.sizeY ∧ 510 + [0x41#8, 0x5A#8].length ≤ toy.sizeY ∧
    1018 + 3 * [0x41#8, 0x5A#8].length ≤ toy.sizeT ∧
    HoldsCells (withSymbols 0 [0x41#8, 0x5A#8]).ymem 0 [0x41#8, 0x5A#8] ∧
    ∀ c ∈ [0x41#8, 0x5A#8], symToTriple c ≠ none :=
  ⟨by decide, by decide, by decide, holdsCells_writeCells _ _ _, by decide⟩

theorem wit_BadRangeTable : ¬lengthFails (.t2b (lastChunk + 1)) ∧ rangeFails Config.params (.t2b (lastChunk + 1)) ∧
    ∃ t, exec (.y2t 0 0 (-1)) State.reset = .next t ∧ t.err = .badRange := by
  have := lastChunk_fits
  refine ⟨by simp [lengthFails], ?_, _, rfl, rfl⟩
  simp only [rangeFails]
  omega

/-- For each command that reads cells, one whose range lacks only its last cell. -/
theorem wit_UnwrittenCellRefused :
    allTrits (withTrits 0 (List.replicate 242 .pos)).tmem ∧ (withTrits 0 (List.replicate 242 .pos)).phase ≠ .squeezing ∧
    (withTrits 0 (List.replicate 242 .pos)).tmem.read 242 = none ∧
    (∀ i ∈ [Instr.absorb 0 243, .t2y 0 0 243, .t2b 0, .y2t 0 511 1, .b2t 0], ¬lengthFails i ∧ ¬rangeFails toy i) ∧
    State.reset.ymem.read 511 = none ∧ (withBuf (List.replicate 47 0#8)).buf.read 47 = none :=
  ⟨withTrits_allTrits _ _, withTrits_phase _ _,
    withTrits_above _ _ _ (by rw [List.length_replicate]),
    by simp [lengthFails, rangeFails, toy], by decide, by decide⟩

theorem wit_ErrorChangesOnlyErr : ∃ t, exec (.absorb 0 0) soundState = .next t ∧ t.err ≠ .ok :=
  ⟨_, rfl, by decide⟩

theorem wit_OutcomesOfTheTable : (∃ t, exec (.t2y 0 0 1) State.reset = .next t) ∧
    exec (.b2t 0) State.reset = .refused .unwrittenCell := by
  refine ⟨⟨_, rfl⟩, ?_⟩
  have h : ¬RunsPast 0 243 Config.params.sizeT := by
    have := chunk_fits
    omega
  simp [exec, execB2t, b2tWith, h, State.reset, Memory.readCells, refuse]

theorem wit_CommandFootprints : ∃ t, exec .new soundState = .next t ∧ t.ctx ≠ soundState.ctx ∧ t.phase ≠ soundState.phase :=
  ⟨_, rfl, by decide, by decide⟩

theorem wit_OnlySqueezeRevealsCtx : (∀ a n, Instr.t2b 0 ≠ .squeeze a n) ∧ (∀ a n, Instr.absorb 0 0 ≠ .squeeze a n) ∧
    ∃ t, exec (.absorb 0 0) soundState = .next t := ⟨by simp, by simp, _, rfl⟩

theorem wit_PhaseTransitions : (∃ t, exec .new soundState = .next t ∧ t.err = .ok) ∧
    ∃ t, exec (.absorb 0 0) soundState = .next t ∧ t.err ≠ .ok := ⟨⟨_, rfl, rfl⟩, _, rfl, by decide⟩

theorem wit_HostReadsBackWhatItWrote : 1023 < toy.sizeT ∧ 511 < toy.sizeY ∧ 47 < 48 := by decide

theorem wit_HostActionsRefused : toy.sizeT ≤ 1024 ∧ toy.sizeY ≤ 512 ∧ 48 ≤ 48 ∧
    State.reset.tmem.read 1023 = none ∧ State.reset.ymem.read 511 = none ∧ State.reset.buf.read 47 = none := by decide

theorem wit_HostReadsChangeNothing : soundState.pending = .host .readStatus :: [] ∧ ∃ t, step soundState = .next t :=
  ⟨rfl, _, rfl⟩

end Sys2Proof.Machine.Tests
end

section
/-! What one command, one event and one step can do, each said once as a relation with a named case for each effect; the
invariants of the state are derived from these. -/

namespace Sys2Proof.Machine

/-- What a command that answers a next state has done: written an error code and nothing else, or completed. -/
inductive CommandEffect (p : Params) (s : State) : Instr → State → Prop
  | error (i : Instr) (e : ErrCode) (he : e ≠ .ok) : CommandEffect p s i (s.setErr e)
  | new : CommandEffect p s .new (((s.setCtx []).setPhase .fresh).setErr .ok)
  | absorb (a : Nat) (n : Int) (ts : List Trit) (c : List Block) (hn : 0 < n) (hm : n % 243 = 0)
      (hloop : absorbLoop (n.toNat / 243) ts s.ctx = .ok c) :
      CommandEffect p s (.absorb a n) (((s.setCtx c).setPhase .absorbing).setErr .ok)
  | squeeze (a : Nat) (n : Int) (c : List Block) (m : Memory 2) (hn : 0 < n) (hm : n % 243 = 0)
      (ha : a + n.toNat ≤ p.sizeT) (hloop : squeezeLoop p (n.toNat / 243) a s.ctx s.tmem = .ok (c, m)) :
      CommandEffect p s (.squeeze a n) ((((s.setCtx c).setTmem m).setPhase .squeezing).setErr .ok)
  | y2t (a b : Nat) (n : Int) (ts : List Trit) (ha : a + ts.length ≤ p.sizeT) :
      CommandEffect p s (.y2t a b n) ((s.setTmem (writeTrits s.tmem a ts)).setErr .ok)
  | t2y (a b : Nat) (n : Int) (cs : List Byte) (hb : b + cs.length ≤ p.sizeY) :
      CommandEffect p s (.t2y a b n) ((s.setYmem (s.ymem.writeCells b cs)).setErr .ok)
  | t2b (a : Nat) (bs : List Byte) (hlen : bs.length = 48) :
      CommandEffect p s (.t2b a) ((s.setBuf (s.buf.writeCells 0 bs)).setErr .ok)
  | b2t (a : Nat) (ts : List Trit) (ha : a + ts.length ≤ p.sizeT) :
      CommandEffect p s (.b2t a) ((s.setTmem (writeTrits s.tmem a ts)).setErr .ok)

/-- A command that answers a next state has had one of its effects. -/
theorem commandEffect_of_next {p : Params} {i : Instr} {s t : State} (h : commandWith p i s = .next t) :
    CommandEffect p s i t := by
  rcases commandWith_next_cases p i s t h with
    ⟨e, rfl, he, -⟩ | ⟨rfl, rfl⟩ | ⟨a, n, ts, c, rfl, hn, hm, -, -, -, hloop, rfl⟩ |
    ⟨a, n, c, m, rfl, hn, hm, ha, hloop, rfl⟩ | ⟨a, b, n, cs, ts, rfl, -, -, ha, hcs, hts, rfl⟩ |
    ⟨a, b, n, ts, rfl, -, hm, -, hb, hts, rfl⟩ | ⟨a, ts, b, rfl, -, -, -, rfl⟩ | ⟨a, bs, ts, rfl, ha, -, hts, rfl⟩
  · exact .error i e he
  · exact .new
  · exact .absorb a n ts c hn hm hloop
  · exact .squeeze a n c m hn hm ha hloop
  · have hlen := (trytesToTrits_spec cs ts hts).1
    have hcount := ((Memory.readCells_ok_iff _ _ _ _).1 hcs).1
    exact .y2t a b n ts (by omega)
  · have hcount := ((readTrits_ok_iff _ _ _ _).1 hts).1
    have hlen := groupSymbols_length (n.toNat / 3) ts (by omega)
    exact .t2y a b n (groupSymbols ts) (by omega)
  · exact .t2b a (blockBytes b) (blockBytes_length b)
  · have hlen := (bytesToTrits_spec _ ts hts).1
    exact .b2t a ts (by omega)

/-- The same of a command of this machine. -/
theorem commandEffect_of_exec {i : Instr} {s t : State} (h : exec i s = .next t) :
    CommandEffect Config.params s i t :=
  commandEffect_of_next (exec_eq_commandWith i s ▸ h)

/-- What an event that answers a next state has done (10_state.md R41, 70_reset_and_hazards.md R240). -/
inductive EventEffect (s : State) : State → Prop
  | command (i : Instr) (t : State) (h : CommandEffect Config.params s i t) : EventEffect s t
  | illegalWord : EventEffect s (s.setErr .illegalCommand)
  | wroteT (a : Nat) (t : Trit) (ha : a < Config.params.sizeT) :
      EventEffect s (s.setTmem (s.tmem.write a t.pattern))
  | wroteY (b : Nat) (c : Byte) (hb : b < Config.params.sizeY) : EventEffect s (s.setYmem (s.ymem.write b c))
  | wroteBuf (j : Nat) (v : Byte) (hj : j < 48) : EventEffect s (s.setBuf (s.buf.write j v))
  | responded (r : Option Response) : EventEffect s (s.setResponse r)
  | reset : EventEffect s (hardwareReset s)

/-- Issuing a word runs the command it stands for, or writes `IllegalCommand`. -/
theorem eventEffect_of_issueWord {cw : CommandWord} {s t : State} (h : issueWord cw s = .next t) :
    EventEffect s t := by
  unfold issueWord at h
  split at h
  · exact .command _ t (commandEffect_of_exec h)
  · obtain rfl := Host.Outcome.next.inj h
    exact .illegalWord

/-- A host action that answers a next state has had one of the effects of an event. -/
theorem eventEffect_of_hostAction {act : HostAction} {s t : State} (h : hostAction act s = .next t) :
    EventEffect s t := by
  cases act with
  | issue cw => exact eventEffect_of_issueWord h
  | writeT a v =>
    simp only [hostAction, hostWriteT] at h
    split at h <;> cases h
    exact .wroteT a v ‹_›
  | writeY b c =>
    simp only [hostAction, hostWriteY] at h
    split at h <;> cases h
    exact .wroteY b c ‹_›
  | writeBuf j v =>
    simp only [hostAction, hostWriteBuf] at h
    split at h <;> cases h
    exact .wroteBuf j v ‹_›
  | readT | readY | readBuf =>
    simp only [hostAction, hostReadT, hostReadY, hostReadBuf] at h
    split at h
    · split at h <;> cases h
      exact .responded _
    · cases h
  | readStatus =>
    cases h
    exact .responded _

/-- So has an event. -/
theorem eventEffect_of_perform {ev : Event} {s t : State} (h : perform ev s = .next t) : EventEffect s t := by
  cases ev with
  | host act => exact eventEffect_of_hostAction h
  | reset =>
    cases h
    exact .reset

/-- With nothing pending the block is idle (70_reset_and_hazards.md R241). -/
theorem step_of_pending_nil {s : State} (h : s.pending = []) : step s = .next s := by
  simp only [step, advance, h]

/-- A step takes the event at the head of `pending`. -/
theorem step_of_pending_cons {s : State} {ev : Event} {rest : List Event} (h : s.pending = ev :: rest) :
    step s = perform ev ((s.setPending rest).setResponse none) := by
  simp only [step, advance, h]

/-- A property that every event keeps, and that is kept too when `pending` or `response` is replaced, is kept by every
step. -/
theorem step_keeps {P : State → Prop} (hpending : ∀ s es, P s → P (s.setPending es))
    (hresponse : ∀ s r, P s → P (s.setResponse r)) (hevent : ∀ s t, EventEffect s t → P s → P t)
    (s t : State) (hs : P s) (h : step s = .next t) : P t := by
  cases hp : s.pending with
  | nil =>
    rw [step_of_pending_nil hp] at h
    cases h
    exact hs
  | cons ev rest =>
    rw [step_of_pending_cons hp] at h
    exact hevent _ t (eventEffect_of_perform h) (hresponse _ _ (hpending _ _ hs))

end Sys2Proof.Machine
end

section
/-! The state at reset, one step of the host's next action, and the refused host actions. -/

namespace Sys2Proof.Machine

/-- Settles O5: the event a step takes is the issue of the word, which runs the command it decodes to. -/
theorem stepRunsDecodedCommand : Obligations.StepRunsDecodedCommand := by
  intro s cw rest i hp hd
  have hissue : ∀ u, issueWord cw u = exec i u := fun u => by simp only [issueWord, hd]
  rw [step_of_pending_cons hp]
  exact hissue _

/-- Settles O6, by the two cases of `pending`. -/
theorem stepTakesTheNextHostAction : Obligations.StepTakesTheNextHostAction :=
  ⟨fun _ hp => step_of_pending_nil hp, fun _ _ _ hp => step_of_pending_cons hp⟩

/-- NEW answers the state with a fresh engine and nothing else changed (10_state.md R39). -/
theorem exec_new (s : State) : exec .new s = .next (((s.setCtx []).setPhase .fresh).setErr .ok) :=
  newWith_eq s

/-- Settles O7, by the values of `State.reset` and the next state of NEW. -/
theorem resetValues : Obligations.ResetValues := by
  refine ⟨rfl, rfl, rfl, by decide, rfl, ?_, ?_, ?_, fun s => ⟨_, exec_new s, rfl, rfl, rfl⟩⟩
  all_goals exact Memory.read_nil

/-- Settles O58: each host action checks its index first, and a read then looks whether the cell is written. -/
theorem hostActionsRefused : Obligations.HostActionsRefused := by
  intro p s a
  refine ⟨fun ha => ⟨?_, fun t => ?_⟩, fun ha => ⟨?_, fun v => ?_⟩, fun ha => ⟨?_, fun v => ?_⟩,
    fun ha hr => ?_, fun ha hr => ?_, fun ha hr => ?_⟩
  · simp [hostReadT, ha.not_gt]
  · simp [hostWriteT, ha.not_gt]
  · simp [hostReadY, ha.not_gt]
  · simp [hostWriteY, ha.not_gt]
  · simp [hostReadBuf, ha.not_gt]
  · simp [hostWriteBuf, ha.not_gt]
  · have hcell := (readTrit_error_iff s.tmem a .unwrittenCell).2 (.inl ⟨rfl, hr⟩)
    simp [hostReadT, ha, hcell]
  · simp [hostReadY, ha, hr]
  · simp [hostReadBuf, ha, hr]

/-- A trit written inside TMEM is read back. -/
theorem hostReadT_after_hostWriteT (p : Params) (s : State) (a : Nat) (t : Trit) (ha : a < p.sizeT) :
    andThen (hostWriteT p a t s) (hostReadT p a) =
      .next ((s.setTmem (s.tmem.write a t.pattern)).setResponse (some (.trit t))) := by
  have hcell : readTrit (s.tmem.write a t.pattern) a = .ok t := by
    rw [readTrit_ok_iff, Memory.read_write, if_pos rfl]
  simp [hostWriteT, hostReadT, andThen, ha, hcell]

/-- A symbol written inside YMEM is read back. -/
theorem hostReadY_after_hostWriteY (p : Params) (s : State) (a : Nat) (v : Byte) (ha : a < p.sizeY) :
    andThen (hostWriteY p a v s) (hostReadY p a) =
      .next ((s.setYmem (s.ymem.write a v)).setResponse (some (.symbol v))) := by
  simp [hostWriteY, hostReadY, andThen, ha, Memory.read_write]

/-- A byte written inside BUF is read back. -/
theorem hostReadBuf_after_hostWriteBuf (s : State) (a : Nat) (v : Byte) (ha : a < 48) :
    andThen (hostWriteBuf a v s) (hostReadBuf a) =
      .next ((s.setBuf (s.buf.write a v)).setResponse (some (.byte v))) := by
  simp [hostWriteBuf, hostReadBuf, andThen, ha, Memory.read_write]

/-- A write changes no other cell. -/
theorem Memory.read_write_of_ne {w : Nat} (m : Memory w) {a c : Nat} (v : BitVec w) (h : c ≠ a) :
    (m.write a v).read c = m.read c := by
  rw [Memory.read_write, if_neg h]

/-- Settles O57: each read finds the cell just written. -/
theorem hostReadsBackWhatItWrote : Obligations.HostReadsBackWhatItWrote := fun p s a =>
  ⟨fun t ha => ⟨_, hostReadT_after_hostWriteT p s a t ha, fun _ => Memory.read_write_of_ne _ _⟩,
    fun v ha => ⟨_, hostReadY_after_hostWriteY p s a v ha, fun _ => Memory.read_write_of_ne _ _⟩,
    fun v ha => ⟨_, hostReadBuf_after_hostWriteBuf s a v ha, fun _ => Memory.read_write_of_ne _ _⟩⟩

end Sys2Proof.Machine
end

section
/-! The memories: canonical form, size, and nothing but trits in TMEM, kept by every step from reset on. -/

namespace Sys2Proof.Machine

/-- A memory in canonical form, within its size. -/
def Memory.Fits {w : Nat} (m : Memory w) (size : Nat) : Prop := m.wf = true ∧ m.within size

theorem Memory.fits_nil {w : Nat} (size : Nat) : Memory.Fits ([] : Memory w) size := ⟨rfl, fun _ _ => rfl⟩

theorem Memory.Fits.write {w : Nat} {m : Memory w} {size a : Nat} (h : m.Fits size) (ha : a < size)
    (v : BitVec w) : (m.write a v).Fits size :=
  ⟨Memory.wf_write m a v h.1, within_write m size a v h.2 ha⟩

theorem Memory.Fits.writeCells {w : Nat} {m : Memory w} {size a : Nat} {vs : List (BitVec w)} (h : m.Fits size)
    (ha : a + vs.length ≤ size) : (m.writeCells a vs).Fits size :=
  ⟨Memory.wf_writeCells m a vs h.1, within_writeCells m size a vs h.2 ha⟩

/-- What is required of TMEM: it fits, and holds nothing but trits (20_memory.md R68). -/
def TmemSound (m : Memory 2) (size : Nat) : Prop := m.Fits size ∧ allTrits m

theorem tmemSound_nil (size : Nat) : TmemSound [] size := ⟨Memory.fits_nil size, fun _ => by simp⟩

theorem TmemSound.writeTrits {m : Memory 2} {size a : Nat} {ts : List Trit} (h : TmemSound m size)
    (ha : a + ts.length ≤ size) : TmemSound (writeTrits m a ts) size :=
  ⟨h.1.writeCells (by simpa using ha), allTrits_writeTrits m a ts h.2⟩

/-- One trit written is a list of one trit written. -/
theorem TmemSound.write {m : Memory 2} {size a : Nat} (h : TmemSound m size) (ha : a < size) (t : Trit) :
    TmemSound (m.write a t.pattern) size :=
  h.writeTrits (ts := [t]) ha

/-- SQUEEZE's loop writes trits to the cells of its chunks, all of them inside TMEM. -/
theorem TmemSound.squeezeLoop {p : Params} {k a size : Nat} {c c' : List Block} {m m' : Memory 2}
    (h : TmemSound m size) (ha : a + 243 * k ≤ size) (hloop : squeezeLoop p k a c m = .ok (c', m')) :
    TmemSound m' size := by
  obtain ⟨⟨hwf, hwithin⟩, htrits⟩ := h
  obtain ⟨-, houtside, hinside, hkeeps⟩ := squeezeLoop_spec p k a c c' m m' hloop
  refine ⟨⟨hkeeps hwf, fun x hx => ?_⟩, fun x => ?_⟩
  · rw [houtside x (by omega), hwithin x hx]
  · by_cases hx : a ≤ x ∧ x < a + 243 * k
    · obtain ⟨t, ht⟩ := hinside x hx.1 hx.2
      rw [ht, ne_eq, Option.some.injEq]
      exact Trit.pattern_ne_invalid t
    · rw [houtside x (by omega)]
      exact htrits x

/-- The memories are sound when each one is. -/
theorem memoriesSound_iff (s : State) : MemoriesSound s ↔
    TmemSound s.tmem Config.params.sizeT ∧ s.ymem.Fits Config.params.sizeY ∧ s.buf.Fits 48 :=
  ⟨fun h => ⟨⟨⟨h.tmemWf, h.tmemWithin⟩, h.tmemTrits⟩, ⟨h.ymemWf, h.ymemWithin⟩, ⟨h.bufWf, h.bufWithin⟩⟩,
    fun ⟨⟨ht, htrits⟩, hy, hb⟩ => ⟨ht.1, hy.1, hb.1, ht.2, hy.2, hb.2, htrits⟩⟩

/-- Empty memories are sound. -/
theorem memoriesSound_of_empty {s : State} (ht : s.tmem = []) (hy : s.ymem = []) (hb : s.buf = []) :
    MemoriesSound s := by
  rw [memoriesSound_iff, ht, hy, hb]
  exact ⟨tmemSound_nil _, Memory.fits_nil _, Memory.fits_nil _⟩

/-- No command makes the memories unsound: the checks of its ranges keep each write inside its memory. -/
theorem CommandEffect.memoriesSound {i : Instr} {s t : State} (h : CommandEffect Config.params s i t)
    (hs : MemoriesSound s) : MemoriesSound t := by
  rw [memoriesSound_iff] at hs ⊢
  obtain ⟨ht, hy, hb⟩ := hs
  cases h with
  | error | new | absorb => exact ⟨ht, hy, hb⟩
  | squeeze a n c m hn hm ha hloop => exact ⟨ht.squeezeLoop (by omega) hloop, hy, hb⟩
  | y2t a b n ts ha => exact ⟨ht.writeTrits ha, hy, hb⟩
  | t2y a b n cs hcs => exact ⟨ht, hy.writeCells hcs, hb⟩
  | t2b a bs hlen => exact ⟨ht, hy, hb.writeCells (by omega)⟩
  | b2t a ts ha => exact ⟨ht.writeTrits ha, hy, hb⟩

/-- No event makes the memories unsound. -/
theorem EventEffect.memoriesSound {s t : State} (h : EventEffect s t) (hs : MemoriesSound s) :
    MemoriesSound t := by
  obtain ⟨ht, hy, hb⟩ := (memoriesSound_iff s).1 hs
  cases h with
  | command i _ h => exact h.memoriesSound hs
  | reset => exact memoriesSound_of_empty rfl rfl rfl
  | illegalWord | responded => exact (memoriesSound_iff _).2 ⟨ht, hy, hb⟩
  | wroteT a v ha => exact (memoriesSound_iff _).2 ⟨ht.write ha v, hy, hb⟩
  | wroteY b c hc => exact (memoriesSound_iff _).2 ⟨ht, hy.write hc c, hb⟩
  | wroteBuf j v hj => exact (memoriesSound_iff _).2 ⟨ht, hy, hb.write hj v⟩

/-- Settles O10, by the effects of the events on each memory. -/
theorem stepKeepsMemoriesSound : Obligations.StepKeepsMemoriesSound :=
  step_keeps (fun s es => by simp [memoriesSound_iff]) (fun s r => by simp [memoriesSound_iff])
    (fun _ _ h => h.memoriesSound)

end Sys2Proof.Machine
end

section
/-! The engine: `CTX` agrees with `PHASE`, kept by every step from reset on (10_state.md R26). -/

namespace Sys2Proof.Machine

/-- Only `CTX` and `PHASE` say whether the engine is sound. -/
theorem EngineSound.congr {s t : State} (hs : EngineSound s) (hctx : t.ctx = s.ctx) (hphase : t.phase = s.phase) :
    EngineSound t := by
  simpa only [EngineSound, hctx, hphase] using hs

theorem engineSound_of_fresh {s : State} (hphase : s.phase = .fresh) (hctx : s.ctx = []) : EngineSound s := by
  simp only [EngineSound, hphase, hctx]

theorem engineSound_of_absorbing {s : State} (hphase : s.phase = .absorbing) (hctx : s.ctx ≠ []) :
    EngineSound s := by
  simpa only [EngineSound, hphase] using hctx

theorem engineSound_of_squeezing {s : State} (hphase : s.phase = .squeezing)
    (hctx : ∃ blocks, s.ctx = [invertBlock (Config.params.hash blocks)]) : EngineSound s := by
  simpa only [EngineSound, hphase, invertBlock] using hctx

/-- ABSORB of at least one chunk leaves a context that is not empty. -/
theorem absorbLoop_ne_nil {k : Nat} {ts : List Trit} {c c' : List Block} (hk : 0 < k)
    (h : absorbLoop k ts c = .ok c') : c' ≠ [] := by
  have hspec := absorbLoop_spec k ts c c' h
  rintro rfl
  simp at hspec
  omega

/-- NEW, ABSORB and SQUEEZE leave the context their phase asks for, the other commands leave the engine alone. -/
theorem CommandEffect.engineSound {i : Instr} {s t : State} (h : CommandEffect Config.params s i t)
    (hs : EngineSound s) : EngineSound t := by
  cases h with
  | new => exact engineSound_of_fresh rfl rfl
  | absorb a n ts c hn hm hloop => exact engineSound_of_absorbing rfl (absorbLoop_ne_nil (by omega) hloop)
  | squeeze a n c m hn hm ha hloop =>
    obtain ⟨hctx, -⟩ := squeezeLoop_spec _ _ _ _ _ _ _ hloop
    exact engineSound_of_squeezing rfl (hctx (by omega))
  | error | y2t | t2y | t2b | b2t => exact hs.congr rfl rfl

/-- No event makes the engine unsound. -/
theorem EventEffect.engineSound {s t : State} (h : EventEffect s t) (hs : EngineSound s) : EngineSound t := by
  cases h with
  | command i _ h => exact h.engineSound hs
  | reset => exact engineSound_of_fresh rfl rfl
  | illegalWord | wroteT | wroteY | wroteBuf | responded => exact hs.congr rfl rfl

/-- Settles O11, by the effects of the events on `CTX` and `PHASE`. -/
theorem stepKeepsEngineSound : Obligations.StepKeepsEngineSound :=
  step_keeps (fun _ _ hs => hs.congr rfl rfl) (fun _ _ hs => hs.congr rfl rfl)
    (fun _ _ h => h.engineSound)

/-- Settles O9, the base case of O10 and O11. -/
theorem resetIsSound : Obligations.ResetIsSound :=
  ⟨memoriesSound_of_empty rfl rfl rfl, engineSound_of_fresh rfl rfl⟩

/-- Settles O56, by the effect of each command. -/
theorem phaseTransitions : Obligations.PhaseTransitions := by
  intro i s t h
  cases commandEffect_of_exec h with
  | error _ e he => simp [he]
  | new | absorb | squeeze | y2t | t2y | t2b | b2t => simp

end Sys2Proof.Machine
end

section
/-! No command makes a written cell unwritten (10_state.md R39). -/

namespace Sys2Proof.Machine

/-- Every cell written in `m` is written in `m'`. -/
def Memory.WrittenIn {w : Nat} (m m' : Memory w) : Prop := ∀ a, m.read a ≠ none → m'.read a ≠ none

theorem Memory.WrittenIn.refl {w : Nat} (m : Memory w) : m.WrittenIn m := fun _ h => h

theorem Memory.writtenIn_writeCells {w : Nat} (m : Memory w) (a : Nat) (vs : List (BitVec w)) :
    m.WrittenIn (m.writeCells a vs) := by
  intro c hc
  rw [Memory.read_writeCells]
  split
  · rw [List.getElem?_eq_getElem (by omega)]
    simp
  · exact hc

theorem writtenIn_squeezeLoop {p : Params} {k a : Nat} {c c' : List Block} {m m' : Memory 2}
    (hloop : squeezeLoop p k a c m = .ok (c', m')) : m.WrittenIn m' := by
  obtain ⟨-, houtside, hinside, -⟩ := squeezeLoop_spec p k a c c' m m' hloop
  intro x hx
  by_cases hr : a ≤ x ∧ x < a + 243 * k
  · obtain ⟨t, ht⟩ := hinside x hr.1 hr.2
    simp [ht]
  · rwa [houtside x (by omega)]

/-- The cells of TMEM, YMEM and BUF that are written stay written through every command. -/
theorem CommandEffect.keeps_written {p : Params} {i : Instr} {s t : State} (h : CommandEffect p s i t) :
    s.tmem.WrittenIn t.tmem ∧ s.ymem.WrittenIn t.ymem ∧ s.buf.WrittenIn t.buf := by
  cases h with
  | error | new | absorb => exact ⟨.refl _, .refl _, .refl _⟩
  | squeeze a n c m hn hm ha hloop => exact ⟨writtenIn_squeezeLoop hloop, .refl _, .refl _⟩
  | y2t | b2t => exact ⟨Memory.writtenIn_writeCells _ _ _, .refl _, .refl _⟩
  | t2y => exact ⟨.refl _, Memory.writtenIn_writeCells _ _ _, .refl _⟩
  | t2b => exact ⟨.refl _, .refl _, Memory.writtenIn_writeCells _ _ _⟩

/-- Settles O29: a write lists cells and takes none away. -/
theorem newRecreatesOnlyTheEngine : Obligations.NewRecreatesOnlyTheEngine :=
  ⟨exec_new, fun _ _ _ h => (commandEffect_of_exec h).keeps_written⟩

end Sys2Proof.Machine
end

section
/-! Two states that differ in one field alone. A command whose meaning does not look at the field commutes with replacing
it; the two fields that matter are `CTX` (10_state.md R25) and the model's own `pending`. -/

namespace Sys2Proof.Machine

/-- The outcome with its next state, if there is one, updated. -/
def mapNext (f : State → State) (r : Result) : Result := andThen r fun t => .next (f t)

@[simp] theorem mapNext_next (f : State → State) (t : State) : mapNext f (.next t) = .next (f t) := rfl

@[simp] theorem mapNext_refused (f : State → State) (r : Refusal) : mapNext f (.refused r) = .refused r := rfl

/-- An update of the state that leaves the three memories, and what a command may write beside the engine, alone. -/
structure MemoryFrame (f : State → State) : Prop where
  tmem : ∀ s, (f s).tmem = s.tmem
  ymem : ∀ s, (f s).ymem = s.ymem
  buf : ∀ s, (f s).buf = s.buf
  setErr : ∀ s e, (f s).setErr e = f (s.setErr e)
  setTmem : ∀ s m, (f s).setTmem m = f (s.setTmem m)
  setYmem : ∀ s m, (f s).setYmem m = f (s.setYmem m)
  setBuf : ∀ s m, (f s).setBuf m = f (s.setBuf m)

theorem memoryFrame_setCtx (c : List Block) : MemoryFrame (·.setCtx c) where
  tmem _ := rfl
  ymem _ := rfl
  buf _ := rfl
  setErr _ _ := rfl
  setTmem _ _ := rfl
  setYmem _ _ := rfl
  setBuf _ _ := rfl

/-- An update of the state that leaves the engine alone too. -/
structure EngineFrame (f : State → State) : Prop extends MemoryFrame f where
  ctx : ∀ s, (f s).ctx = s.ctx
  phase : ∀ s, (f s).phase = s.phase
  setCtx : ∀ s c, (f s).setCtx c = f (s.setCtx c)
  setPhase : ∀ s ph, (f s).setPhase ph = f (s.setPhase ph)

theorem engineFrame_setPending (es : List Event) : EngineFrame (·.setPending es) where
  tmem _ := rfl
  ymem _ := rfl
  buf _ := rfl
  setErr _ _ := rfl
  setTmem _ _ := rfl
  setYmem _ _ := rfl
  setBuf _ _ := rfl
  ctx _ := rfl
  phase _ := rfl
  setCtx _ _ := rfl
  setPhase _ _ := rfl

section
variable {f : State → State} (hf : MemoryFrame f) (p : Params)
include hf

theorem MemoryFrame.y2tWith (a b : Nat) (n : Int) (s : State) :
    y2tWith p a b n (f s) = mapNext f (y2tWith p a b n s) := by
  simp only [Machine.y2tWith, raise_eq, refuse_eq, complete_eq, hf.tmem, hf.ymem, hf.setErr, hf.setTmem]
  split
  · rfl
  · split
    · rfl
    · split <;> rfl

theorem MemoryFrame.t2yWith (a b : Nat) (n : Int) (s : State) :
    t2yWith p a b n (f s) = mapNext f (t2yWith p a b n s) := by
  simp only [Machine.t2yWith, raise_eq, refuse_eq, complete_eq, hf.tmem, hf.ymem, hf.setErr, hf.setYmem]
  split
  · rfl
  · split
    · rfl
    · split
      · rfl
      · split <;> rfl

theorem MemoryFrame.t2bWith (a : Nat) (s : State) : t2bWith p a (f s) = mapNext f (t2bWith p a s) := by
  simp only [Machine.t2bWith, raise_eq, refuse_eq, complete_eq, hf.tmem, hf.buf, hf.setErr, hf.setBuf]
  split
  · rfl
  · split
    · rfl
    · split <;> rfl

theorem MemoryFrame.b2tWith (a : Nat) (s : State) : b2tWith p a (f s) = mapNext f (b2tWith p a s) := by
  simp only [Machine.b2tWith, raise_eq, refuse_eq, complete_eq, hf.tmem, hf.buf, hf.setErr, hf.setTmem]
  split
  · rfl
  · split
    · rfl
    · split <;> rfl

end

section
variable {f : State → State} (hf : EngineFrame f) (p : Params)
include hf

theorem EngineFrame.absorbWith (a : Nat) (n : Int) (s : State) :
    absorbWith p a n (f s) = mapNext f (absorbWith p a n s) := by
  simp only [Machine.absorbWith, raise_eq, refuse_eq, complete_eq, hf.tmem, hf.phase, hf.ctx, hf.setErr, hf.setCtx,
    hf.setPhase]
  split
  · rfl
  · split
    · rfl
    · split
      · rfl
      · split
        · rfl
        · split <;> rfl

theorem EngineFrame.squeezeWith (a : Nat) (n : Int) (s : State) :
    squeezeWith p a n (f s) = mapNext f (squeezeWith p a n s) := by
  simp only [Machine.squeezeWith, raise_eq, complete_eq, hf.tmem, hf.ctx, hf.setErr, hf.setCtx, hf.setTmem,
    hf.setPhase]
  split
  · rfl
  · split
    · rfl
    · split <;> rfl

/-- No command looks at what the update replaces. -/
theorem EngineFrame.commandWith (i : Instr) (s : State) :
    commandWith p i (f s) = mapNext f (commandWith p i s) := by
  cases i with
  | new => simp only [Machine.commandWith, newWith_eq, hf.setCtx, hf.setPhase, hf.setErr, mapNext_next]
  | absorb a n => exact hf.absorbWith p a n s
  | squeeze a n => exact hf.squeezeWith p a n s
  | y2t a b n => exact hf.y2tWith p a b n s
  | t2y a b n => exact hf.t2yWith p a b n s
  | t2b a => exact hf.t2bWith p a s
  | b2t a => exact hf.b2tWith p a s

end

/-- ABSORB's loop appends to the context and does not look at it. -/
theorem absorbLoop_append (k : Nat) (ts : List Trit) (c d : List Block) :
    absorbLoop k ts (c ++ d) = (absorbLoop k ts d).map (c ++ ·) := by
  induction k generalizing ts d with
  | zero => rfl
  | succ k ih =>
    simp only [absorbLoop, piUpdate, List.append_assoc, ih]
    cases tritsToBytes (maskTop (ts.take 243)) <;> rfl

/-- What ABSORB answers rests on the context in the context alone. -/
theorem absorbWith_setCtx (p : Params) (a : Nat) (n : Int) (s : State) (c : List Block) :
    ∃ c', absorbWith p a n (s.setCtx c) = mapNext (·.setCtx c') (absorbWith p a n s) := by
  have hloop : ∀ ts d, absorbLoop (n.toNat / 243) ts d = (absorbLoop (n.toNat / 243) ts []).map (d ++ ·) :=
    fun ts d => by rw [← absorbLoop_append, List.append_nil]
  simp only [absorbWith, raise_eq, refuse_eq, complete_eq, State.setCtx_tmem, State.setCtx_phase,
    State.setCtx_ctx, hloop _ c, hloop _ s.ctx]
  split
  · exact ⟨c, rfl⟩
  · split
    · exact ⟨c, rfl⟩
    · split
      · exact ⟨c, rfl⟩
      · split
        · exact ⟨c, rfl⟩
        · rename_i ts _
          cases absorbLoop (n.toNat / 243) ts [] with
          | error e => exact ⟨c, rfl⟩
          | ok blocks => exact ⟨c ++ blocks, rfl⟩

/-- Every command but SQUEEZE answers the same on two states that differ in `CTX` alone, but for `CTX`. -/
theorem commandWith_setCtx (p : Params) (i : Instr) (s : State) (c : List Block) (hi : ∀ a n, i ≠ .squeeze a n) :
    ∃ c', commandWith p i (s.setCtx c) = mapNext (·.setCtx c') (commandWith p i s) := by
  have hf := memoryFrame_setCtx c
  cases i with
  | new => exact ⟨[], rfl⟩
  | absorb a n => exact absorbWith_setCtx p a n s c
  | squeeze a n => exact absurd rfl (hi a n)
  | y2t a b n => exact ⟨c, hf.y2tWith p a b n s⟩
  | t2y a b n => exact ⟨c, hf.t2yWith p a b n s⟩
  | t2b a => exact ⟨c, hf.t2bWith p a s⟩
  | b2t a => exact ⟨c, hf.b2tWith p a s⟩

theorem mapNext_eq_refused_iff (f : State → State) (o : Result) (r : Refusal) :
    mapNext f o = .refused r ↔ o = .refused r := by
  cases o <;> simp [mapNext, andThen]

/-- Settles O55: replacing `CTX` before the command is replacing it after. -/
theorem onlySqueezeRevealsCtx : Obligations.OnlySqueezeRevealsCtx := by
  intro i s c hi
  simp only [exec_eq_commandWith]
  obtain ⟨c', hc'⟩ := commandWith_setCtx Config.params i s c hi
  refine ⟨fun r => ?_, fun t ht => ⟨c', ?_⟩⟩
  · exact (mapNext_eq_refused_iff _ _ r).symm.trans (by rw [← hc']; rfl)
  · rw [ht] at hc'
    exact hc'

end Sys2Proof.Machine
end

section
/-! A run: a step does not look at what is pending after its event, and no event clears the mark `REFUSED`
(10_state.md R37). -/

namespace Sys2Proof.Machine

/-- No event looks at `pending`. -/
theorem perform_setPending (ev : Event) (s : State) (es : List Event) :
    perform ev (s.setPending es) = mapNext (·.setPending es) (perform ev s) := by
  cases ev with
  | reset => rfl
  | host act =>
    cases act with
    | issue cw =>
      simp only [perform, hostAction, issueWord, exec_eq_commandWith]
      split
      · exact (engineFrame_setPending es).commandWith _ _ s
      · rfl
    | readStatus => rfl
    | writeT | writeY | writeBuf =>
      simp only [perform, hostAction, hostWriteT, hostWriteY, hostWriteBuf]
      split <;> rfl
    | readT | readY | readBuf =>
      simp only [perform, hostAction, hostReadT, hostReadY, hostReadBuf, State.setPending_tmem,
        State.setPending_ymem, State.setPending_buf]
      split
      · split <;> rfl
      · rfl

/-- A step on a given list of events performs the first of them and leaves the others. -/
theorem step_setPending_cons (s : State) (ev : Event) (es : List Event) :
    step (s.setPending (ev :: es)) = mapNext (·.setPending es) (perform ev (s.setResponse none)) := by
  rw [step_of_pending_cons (State.setPending_pending s (ev :: es))]
  exact perform_setPending ev (s.setResponse none) es

theorem CommandEffect.refused_eq {p : Params} {i : Instr} {s t : State} (h : CommandEffect p s i t) :
    t.refused = s.refused := by
  cases h <;> rfl

/-- No event, a hardware reset included, changes the mark `REFUSED`. -/
theorem EventEffect.refused_eq {s t : State} (h : EventEffect s t) : t.refused = s.refused := by
  cases h with
  | command i _ h => exact h.refused_eq
  | illegalWord | wroteT | wroteY | wroteBuf | responded | reset => rfl

theorem step_refused_eq (s t : State) (h : step s = .next t) : t.refused = s.refused :=
  step_keeps (P := fun u => u.refused = s.refused) (fun _ _ hu => hu) (fun _ _ hu => hu)
    (fun _ _ he hu => he.refused_eq.trans hu) s t rfl h

/-- Once refused, a run stays so. -/
theorem runSteps_keeps_refused (k : Nat) (s : State) (hs : s.refused = true) : (runSteps k s).refused = true := by
  induction k generalizing s with
  | zero => exact hs
  | succ k ih =>
    simp only [runSteps]
    split
    · exact ih _ ((step_refused_eq s _ ‹_›).trans hs)
    · exact hs
    · rfl

/-- A run that is refused is refused with more events after its own: either the same event is refused in the longer run,
or the mark was there from the start. -/
theorem runSteps_append_refused (es more : List Event) (s : State)
    (h : (runSteps es.length (s.setPending es)).refused = true) :
    (runSteps (es ++ more).length (s.setPending (es ++ more))).refused = true := by
  induction es generalizing s with
  | nil => exact runSteps_keeps_refused _ _ h
  | cons ev es ih =>
    simp only [List.cons_append, List.length_cons, runSteps, step_setPending_cons] at h ⊢
    cases hev : perform ev (s.setResponse none) with
    | next t =>
      simp only [hev, mapNext_next] at h ⊢
      exact ih t h
    | fault f => cases f
    | refused r => rfl

/-- Settles O12: the second part is by induction on the events of the refused run. -/
theorem refusalIsNeverCleared : Obligations.RefusalIsNeverCleared :=
  ⟨step_refused_eq, fun es more => runSteps_append_refused es more State.reset⟩

end Sys2Proof.Machine
end

section
/-! A byte chunk is the 48 digits of a number to the base 256, the most significant first (20_memory.md R52). -/

namespace Sys2Proof.Machine

/-- The number whose digits to the base 256 are the bytes, the first most significant. -/
def bytesValue (bs : List Byte) : Nat := bs.foldl (fun acc v => acc * 256 + v.toNat) 0

theorem bytesValue_append_singleton (bs : List Byte) (v : Byte) :
    bytesValue (bs ++ [v]) = bytesValue bs * 256 + v.toNat := by
  simp [bytesValue]

theorem bytesValue_lt (bs : List Byte) : bytesValue bs < 256 ^ bs.length := by
  induction bs using List.reverseRecOn with
  | nil => simp [bytesValue]
  | append_singleton bs v ih =>
    have hv := v.isLt
    rw [bytesValue_append_singleton, List.length_append, List.length_singleton, pow_succ]
    omega

/-- Each byte is the digit at its place. -/
theorem bytesValue_digit (bs : List Byte) (j : Nat) (hj : j < bs.length) :
    bytesValue bs / 256 ^ (bs.length - 1 - j) % 256 = bs[j].toNat := by
  induction bs using List.reverseRecOn with
  | nil => simp at hj
  | append_singleton bs v ih =>
    have hv := v.isLt
    simp only [List.length_append, List.length_singleton, Nat.add_sub_cancel] at hj ⊢
    rw [bytesValue_append_singleton]
    rcases Nat.lt_succ_iff_lt_or_eq.1 hj with hlt | rfl
    · have hexp : bs.length - j = (bs.length - 1 - j) + 1 := by omega
      have hrest : (bytesValue bs * 256 + v.toNat) / 256 = bytesValue bs := by omega
      rw [List.getElem_append_left hlt, ← ih hlt, hexp, pow_succ', ← Nat.div_div_eq_div_mul, hrest]
    · simp
      omega

/-- The last `n` digits of a number to the base 256, each at its weight, make up its remainder modulo `256 ^ n`. -/
theorem sum_digits_eq_mod (x n : Nat) :
    ((List.range n).map fun j => x / 256 ^ (n - 1 - j) % 256 * 256 ^ (n - 1 - j)).sum = x % 256 ^ n := by
  induction n with
  | zero => simp [Nat.mod_one]
  | succ n ih =>
    simp only [Nat.sub_sub, Nat.add_comm 1] at ih
    rw [List.sum_range_succ', Nat.mod_pow_succ, ← ih, Nat.add_sub_cancel, Nat.sub_zero, Nat.add_comm, Nat.mul_comm]

/-- A chunk has 384 bits, which are 48 bytes. -/
theorem two_pow_384 : 2 ^ 384 = 256 ^ 48 := by
  rw [show 384 = 8 * 48 from rfl, pow_mul]
  rfl

theorem block_toNat_lt (b : Block) : b.toNat < 256 ^ 48 := by
  have hlt : ∀ {w : Nat} (x : BitVec w), x.toNat < 2 ^ w := fun x => x.isLt
  exact (hlt b).trans_eq two_pow_384

theorem blockByte_toNat (b : Block) (j : Nat) : (blockByte b j).toNat = b.toNat / 256 ^ (47 - j) % 256 := by
  rw [blockByte, BitVec.extractLsb'_toNat, Nat.shiftRight_eq_div_pow, pow_mul]
  rfl

/-- A chunk is the sum of its bytes, each at its weight. -/
theorem sum_blockByte (b : Block) :
    ((List.range 48).map fun j => (blockByte b j).toNat * 256 ^ (47 - j)).sum = b.toNat := by
  simpa only [blockByte_toNat, Nat.mod_eq_of_lt (block_toNat_lt b)] using sum_digits_eq_mod b.toNat 48

theorem blockOfBytes_toNat (bs : List Byte) (h : bs.length = 48) : (blockOfBytes bs).toNat = bytesValue bs := by
  have hofNat : ∀ w x, x < 2 ^ w → (BitVec.ofNat w x).toNat = x := fun w x hx => by
    rw [BitVec.toNat_ofNat, Nat.mod_eq_of_lt hx]
  exact hofNat 384 _ ((h ▸ bytesValue_lt bs).trans_eq two_pow_384.symm)

theorem blockBytes_injective : Function.Injective blockBytes := by
  intro b c h
  have hbyte : ∀ j ∈ List.range 48, blockByte b j = blockByte c j := List.map_inj_left.1 h
  apply BitVec.eq_of_toNat_eq
  rw [← sum_blockByte b, ← sum_blockByte c]
  exact congrArg List.sum (List.map_congr_left fun j hj => by rw [hbyte j hj])

theorem blockBytes_blockOfBytes (bs : List Byte) (h : bs.length = 48) : blockBytes (blockOfBytes bs) = bs := by
  refine List.ext_getElem (by simp [h]) fun j _ hj => BitVec.eq_of_toNat_eq ?_
  rw [← bytesValue_digit bs j hj, h]
  simp [blockBytes, blockByte_toNat, blockOfBytes_toNat bs h]

theorem blockOfBytes_blockBytes (b : Block) : blockOfBytes (blockBytes b) = b :=
  blockBytes_injective (blockBytes_blockOfBytes _ (blockBytes_length b))

/-- The sign of a chunk is the top bit of its byte 0. -/
theorem blockByte_zero_top (b : Block) : (blockByte b 0).getLsbD 7 = b.msb := by
  simp [blockByte, BitVec.msb_eq_getLsbD_last]

/-- Two's complement takes `2 ^ w` off the unsigned value where the top bit is set. -/
theorem toInt_eq_toNat_sub {w : Nat} (x : BitVec w) : x.toInt = x.toNat - (if x.msb then 2 ^ w else 0) := by
  rw [BitVec.toInt_eq_msb_cond]
  split <;> simp

/-- Settles O15: the sum of the bytes is the unsigned value, and the top bit of byte 0 is the sign; a chunk is determined by its bytes, so the second inverse follows from the first. -/
theorem byteChunkIsBigEndian : Obligations.ByteChunkIsBigEndian := by
  refine ⟨fun b => ?_, blockOfBytes_blockBytes, blockBytes_blockOfBytes⟩
  have hsum : ((List.range 48).map fun j => ((blockByte b j).toNat : Int) * 256 ^ (47 - j)).sum = b.toNat := by
    rw [← sum_blockByte b, Nat.cast_list_sum, List.map_map]
    simp [Function.comp_def]
  rw [hsum, blockByte_zero_top]
  exact toInt_eq_toNat_sub b

end Sys2Proof.Machine
end

section
/-! What a command reads is refused where a cell of it is unwritten (20_memory.md R67). -/

namespace Sys2Proof.Machine

/-- A range with an unwritten cell is refused. -/
theorem Memory.readCells_of_unwritten {w : Nat} {m : Memory w} {a n x : Nat} (hax : a ≤ x) (hxn : x < a + n)
    (hx : m.read x = none) : m.readCells a n = .error .unwrittenCell := by
  cases hr : m.readCells a n with
  | error r => rw [(Memory.readCells_error m a n r hr).1]
  | ok vs =>
    obtain ⟨hlen, hcells⟩ := (Memory.readCells_ok_iff m a n vs).1 hr
    have hcell := hcells (x - a) (by omega)
    rw [Nat.add_sub_cancel' hax, hx] at hcell
    cases hcell

/-- A range of trits with an unwritten cell is refused for that, since no cell holds the pattern that is no trit. -/
theorem readTrits_of_unwritten {m : Memory 2} {a n x : Nat} (htrits : allTrits m) (hax : a ≤ x) (hxn : x < a + n)
    (hx : m.read x = none) : readTrits m a n = .error .unwrittenCell := by
  cases hr : readTrits m a n with
  | error r =>
    obtain ⟨i, -, ⟨rfl, -⟩ | ⟨-, hbad⟩⟩ := readTrits_error m a n r hr
    · rfl
    · exact absurd hbad (htrits _)
  | ok ts =>
    obtain ⟨hlen, hcells⟩ := (readTrits_ok_iff m a n ts).1 hr
    have hcell := hcells (x - a) (by omega)
    rw [Nat.add_sub_cancel' hax, hx] at hcell
    cases hcell

section
variable {p : Params} {s : State} {r : Refusal}

theorem absorbWith_refused {a : Nat} {n : Int} (hlength : ¬lengthFails (.absorb a n))
    (hrange : ¬rangeFails p (.absorb a n)) (hphase : s.phase ≠ .squeezing)
    (hread : readTrits s.tmem a n.toNat = .error r) : absorbWith p a n s = .refused r := by
  simp only [lengthFails, rangeFails] at hlength hrange
  rcases absorbWith_cases p a n s with ⟨h, -⟩ | ⟨-, -, ⟨h, -⟩ | ⟨-, ⟨h, -⟩ | ⟨-, ⟨r', hr', h⟩ | ⟨ts, hts, -⟩⟩⟩⟩
  · exact absurd h hlength
  · omega
  · exact absurd h hphase
  · cases hread.symm.trans hr'
    exact h
  · cases hread.symm.trans hts

theorem y2tWith_refused {a b : Nat} {n : Int} (hrange : ¬rangeFails p (.y2t a b n))
    (hread : s.ymem.readCells b n.toNat = .error r) : y2tWith p a b n s = .refused r := by
  simp only [rangeFails] at hrange
  rcases y2tWith_cases p a b n s with ⟨h, -⟩ | ⟨-, -, -, ⟨r', hr', h⟩ | ⟨cs, hcs, -⟩⟩
  · omega
  · cases hread.symm.trans hr'
    exact h
  · cases hread.symm.trans hcs

theorem t2yWith_refused {a b : Nat} {n : Int} (hlength : ¬lengthFails (.t2y a b n))
    (hrange : ¬rangeFails p (.t2y a b n)) (hread : readTrits s.tmem a n.toNat = .error r) :
    t2yWith p a b n s = .refused r := by
  simp only [lengthFails, rangeFails] at hlength hrange
  rcases t2yWith_cases p a b n s with ⟨h, -⟩ | ⟨-, ⟨h, -⟩ | ⟨-, -, -, ⟨r', hr', h⟩ | ⟨ts, hts, -⟩⟩⟩
  · exact absurd h hlength
  · omega
  · cases hread.symm.trans hr'
    exact h
  · cases hread.symm.trans hts

theorem t2bWith_refused {a : Nat} (hrange : ¬rangeFails p (.t2b a))
    (hread : readTrits s.tmem a 243 = .error r) : t2bWith p a s = .refused r := by
  simp only [rangeFails] at hrange
  rcases t2bWith_cases p a s with ⟨h, -⟩ | ⟨-, ⟨r', hr', h⟩ | ⟨ts, hts, -⟩⟩
  · omega
  · cases hread.symm.trans hr'
    exact h
  · cases hread.symm.trans hts

theorem b2tWith_refused {a : Nat} (hrange : ¬rangeFails p (.b2t a))
    (hread : s.buf.readCells 0 48 = .error r) : b2tWith p a s = .refused r := by
  simp only [rangeFails] at hrange
  rcases b2tWith_cases p a s with ⟨h, -⟩ | ⟨-, ⟨r', hr', h⟩ | ⟨bs, hbs, -⟩⟩
  · omega
  · cases hread.symm.trans hr'
    exact h
  · cases hread.symm.trans hbs

end

/-- Settles O51: the cells are read after length, range and phase and before anything else, and the read is refused. -/
theorem unwrittenCellRefused : Obligations.UnwrittenCellRefused := by
  rintro p i s htrits hlength hrange
    (⟨a, n, x, rfl, hphase, hax, hxn, hx⟩ | ⟨a, b, n, x, rfl, hax, hxn, hx⟩ | ⟨a, x, rfl, hax, hxn, hx⟩ |
      ⟨a, b, n, x, rfl, hbx, hxn, hx⟩ | ⟨a, j, rfl, hj, hx⟩)
  · exact absorbWith_refused hlength hrange hphase (readTrits_of_unwritten htrits hax (by omega) hx)
  · exact t2yWith_refused hlength hrange (readTrits_of_unwritten htrits hax (by omega) hx)
  · exact t2bWith_refused hrange (readTrits_of_unwritten htrits hax hxn hx)
  · exact y2tWith_refused hrange (Memory.readCells_of_unwritten hbx (by omega) hx)
  · exact b2tWith_refused hrange (Memory.readCells_of_unwritten j.zero_le (by omega) hx)

end Sys2Proof.Machine
end

section
/-! What a command, a host read and a step of one of several blocks leave alone (20_memory.md R58, R60, R64). -/

namespace Sys2Proof.Machine

/-- Settles O54: each command's effect sets the fields named for it and no other. -/
theorem commandFootprints : Obligations.CommandFootprints := by
  intro i s t h
  cases commandEffect_of_exec h with
  | error | new | absorb | squeeze | y2t | t2y | t2b | b2t => simp

/-- The host action hands a value to the host (10_state.md R41). -/
def HostAction.IsRead (act : HostAction) : Prop :=
  (∃ a, act = .readT a) ∨ (∃ b, act = .readY b) ∨ (∃ j, act = .readBuf j) ∨ act = .readStatus

/-- A host read that is not refused replaces the returned value and nothing else. -/
theorem hostAction_read_next {act : HostAction} {s t : State} (hact : act.IsRead) (h : hostAction act s = .next t) :
    ∃ r, t = s.setResponse r := by
  rcases hact with ⟨a, rfl⟩ | ⟨b, rfl⟩ | ⟨j, rfl⟩ | rfl
  case inr.inr.inr =>
    cases h
    exact ⟨_, rfl⟩
  all_goals
    simp only [hostAction, hostReadT, hostReadY, hostReadBuf] at h
    split at h
    · split at h <;> cases h
      exact ⟨_, rfl⟩
    · cases h

/-- Settles O59: the step takes the action off `pending` and the read replaces the returned value. -/
theorem hostReadsChangeNothing : Obligations.HostReadsChangeNothing := by
  intro s t act rest hp hact h
  rw [step_of_pending_cons hp] at h
  obtain ⟨r, rfl⟩ := hostAction_read_next hact h
  rfl

/-- Settles O60, by induction on the schedule: each entry advances the block it names and no other. -/
theorem instancesShareNoState : Obligations.InstancesShareNoState := by
  intro schedule ms j
  induction schedule generalizing ms with
  | nil => simp [runInstances]
  | cons k ks ih =>
    rw [runInstances, ih, stepInstance_getElem?]
    by_cases hkj : k = j
    · simp [hkj, Function.comp_def]
    · simp [hkj]

end Sys2Proof.Machine
end

section
/-! The decoder and the encoder (30_encoding.md R70 to R74): which word decodes to a command, and what the mask of its used
fields keeps of a word. -/

namespace Sys2Proof

/-- The word has the command's opcode in `OP` and its operands in the fields it uses (30_encoding.md R72). -/
def Carries (cw : CommandWord) (i : Instr) : Prop :=
  opField cw = BitVec.ofNat 32 i.opcode ∧
  match i with
  | .new => True
  | .absorb a n | .squeeze a n => aField cw = a ∧ nField cw = n
  | .y2t a b n | .t2y a b n => aField cw = a ∧ bField cw = b ∧ nField cw = n
  | .t2b a | .b2t a => aField cw = a

/-- A word decodes to the command it carries, and to no other. -/
theorem decode_eq_ok_iff (cw : CommandWord) (i : Instr) : decode cw = .ok i ↔ Carries cw i := by
  constructor
  · intro h
    unfold decode at h
    split at h <;> cases h <;> rename_i hop <;>
      exact ⟨BitVec.eq_of_toNat_eq hop, by simp⟩
  · rintro ⟨hop, hfields⟩
    cases i with
    | new => simp [decode, hop, Instr.opcode]
    | absorb a n | squeeze a n =>
      obtain ⟨rfl, rfl⟩ := hfields
      simp [decode, hop, Instr.opcode]
    | y2t a b n | t2y a b n =>
      obtain ⟨rfl, rfl, rfl⟩ := hfields
      simp [decode, hop, Instr.opcode]
    | t2b a | b2t a =>
      obtain rfl := hfields
      simp [decode, hop, Instr.opcode]

/-- A word is rejected for its opcode and for nothing else (30_encoding.md R74). -/
theorem decode_eq_error_iff (cw : CommandWord) (e : DecodeError) :
    decode cw = .error e ↔
      ((opField cw).toNat = 0 ∨ 7 < (opField cw).toNat) ∧ e = .illegalOpcode (opField cw) := by
  unfold decode
  split
  case h_8 =>
    have hop : (opField cw).toNat = 0 ∨ 7 < (opField cw).toNat := by
      simp only [imp_false] at *
      omega
    rw [and_iff_right hop, Except.error.injEq, eq_comm]
  all_goals simp [*]

/-- The word of a well-formed command carries the command. -/
theorem carries_encode (i : Instr) (h : i.wellFormed = true) : Carries (encode i) i := by
  cases i with
  | new => exact ⟨Laws.EncodedFields.new.1, trivial⟩
  | absorb a n =>
    obtain ⟨hop, -, hfields⟩ := Laws.EncodedFields.absorb a n
    exact ⟨hop, hfields h⟩
  | squeeze a n =>
    obtain ⟨hop, -, hfields⟩ := Laws.EncodedFields.squeeze a n
    exact ⟨hop, hfields h⟩
  | y2t a b n =>
    obtain ⟨hop, hfields⟩ := Laws.EncodedFields.y2t a b n
    exact ⟨hop, hfields h⟩
  | t2y a b n =>
    obtain ⟨hop, hfields⟩ := Laws.EncodedFields.t2y a b n
    exact ⟨hop, hfields h⟩
  | t2b a =>
    obtain ⟨hop, -, -, hfields⟩ := Laws.EncodedFields.t2b a
    exact ⟨hop, hfields h⟩
  | b2t a =>
    obtain ⟨hop, -, -, hfields⟩ := Laws.EncodedFields.b2t a
    exact ⟨hop, hfields h⟩

/-- Settles O2: the encoded word carries the command, and a word decodes to the command it carries. -/
theorem decodeOfEncode : Obligations.DecodeOfEncode := fun i h =>
  (decode_eq_ok_iff _ _).2 (carries_encode i h)

theorem offsetFits_aField (cw : CommandWord) : offsetFits (aField cw) = true :=
  decide_eq_true (BitVec.isLt _)

theorem offsetFits_bField (cw : CommandWord) : offsetFits (bField cw) = true :=
  decide_eq_true (BitVec.isLt _)

theorem lengthFits_nField (cw : CommandWord) : lengthFits (nField cw) = true :=
  decide_eq_true ⟨BitVec.le_toInt _, BitVec.toInt_lt⟩

/-- A word can carry no operand its field has no value for. -/
theorem wellFormed_of_carries {cw : CommandWord} {i : Instr} (h : Carries cw i) : i.wellFormed = true := by
  have ha := offsetFits_aField cw
  have hb := offsetFits_bField cw
  have hn := lengthFits_nField cw
  cases i with
  | new => rfl
  | absorb | squeeze =>
    obtain ⟨-, rfl, rfl⟩ := h
    simp [Instr.wellFormed, ha, hn]
  | y2t | t2y =>
    obtain ⟨-, rfl, rfl, rfl⟩ := h
    simp [Instr.wellFormed, ha, hb, hn]
  | t2b | b2t =>
    obtain ⟨-, rfl⟩ := h
    exact ha

/-- Two words with the same fields are the same word. -/
theorem commandWord_ext_iff (cw cw' : CommandWord) : cw = cw' ↔
    opField cw = opField cw' ∧ aField cw = aField cw' ∧ bField cw = bField cw' ∧ nField cw = nField cw' := by
  refine ⟨fun h => by simp [h], fun ⟨hop, ha, hb, hn⟩ => ?_⟩
  rw [← commandWord_fields cw, hop, ha, hb, hn, commandWord_fields]

/-- Masking a word masks each of its fields. -/
theorem extractLsb'_and_field (cw m : CommandWord) (k : Nat) (use : Bool)
    (hm : m.extractLsb' k 32 = bif use then BitVec.allOnes 32 else 0#32) :
    (cw &&& m).extractLsb' k 32 = bif use then cw.extractLsb' k 32 else 0#32 := by
  rw [BitVec.extractLsb'_and, hm]
  cases use
  · exact BitVec.and_zero
  · exact BitVec.and_allOnes

/-- The command uses the field `A` (30_encoding.md R72). -/
def Instr.usesA : Instr → Bool
  | .new => false
  | .absorb .. | .squeeze .. | .y2t .. | .t2y .. | .t2b _ | .b2t _ => true

/-- The command uses the field `B` (30_encoding.md R72). -/
def Instr.usesB : Instr → Bool
  | .y2t .. | .t2y .. => true
  | .new | .absorb .. | .squeeze .. | .t2b _ | .b2t _ => false

/-- The command uses the field `N` (30_encoding.md R72). -/
def Instr.usesN : Instr → Bool
  | .absorb .. | .squeeze .. | .y2t .. | .t2y .. => true
  | .new | .t2b _ | .b2t _ => false

section
variable (cw : CommandWord) (i : Instr)

/-- The mask of a command keeps `OP` and the fields the command uses, and clears the others. -/
theorem opField_and_usedMask : opField (cw &&& i.usedMask) = opField cw :=
  extractLsb'_and_field cw _ 0 true (by cases i <;> simp only [Instr.usedMask] <;> decide)

theorem aField_and_usedMask : aField (cw &&& i.usedMask) = bif i.usesA then aField cw else 0 := by
  rw [aField, extractLsb'_and_field cw _ 32 i.usesA
    (by cases i <;> simp only [Instr.usedMask, Instr.usesA] <;> decide)]
  cases i.usesA <;> rfl

theorem bField_and_usedMask : bField (cw &&& i.usedMask) = bif i.usesB then bField cw else 0 := by
  rw [bField, extractLsb'_and_field cw _ 64 i.usesB
    (by cases i <;> simp only [Instr.usedMask, Instr.usesB] <;> decide)]
  cases i.usesB <;> rfl

theorem nField_and_usedMask : nField (cw &&& i.usedMask) = bif i.usesN then nField cw else 0 := by
  rw [nField, extractLsb'_and_field cw _ 96 i.usesN
    (by cases i <;> simp only [Instr.usedMask, Instr.usesN] <;> decide)]
  cases i.usesN <;> rfl

/-- What a word carries depends on its masked bits alone. -/
theorem carries_and_usedMask : Carries (cw &&& i.usedMask) i ↔ Carries cw i := by
  unfold Carries
  rw [opField_and_usedMask, aField_and_usedMask, bField_and_usedMask, nField_and_usedMask]
  cases i <;> rfl

end

/-- The encoder writes 0 in the fields the command does not use (30_encoding.md R73). -/
theorem encode_unused (i : Instr) :
    (i.usesA = false → aField (encode i) = 0) ∧ (i.usesB = false → bField (encode i) = 0) ∧
      (i.usesN = false → nField (encode i) = 0) := by
  cases i <;> simp [encode, Instr.usesA, Instr.usesB, Instr.usesN]

/-- The encoder writes the used fields as they were and 0 in the others (30_encoding.md R73). -/
theorem encode_of_carries {cw : CommandWord} {i : Instr} (h : Carries cw i) : encode i = cw &&& i.usedMask := by
  obtain ⟨hopcode, hwritten⟩ := carries_encode i (wellFormed_of_carries h)
  obtain ⟨hA, hB, hN⟩ := encode_unused i
  obtain ⟨hop, hfields⟩ := h
  rw [commandWord_ext_iff, opField_and_usedMask, aField_and_usedMask, bField_and_usedMask, nField_and_usedMask]
  refine ⟨hopcode.trans hop.symm, ?_⟩
  cases i with
  | new => exact ⟨hA rfl, hB rfl, hN rfl⟩
  | absorb | squeeze =>
    obtain ⟨rfl, rfl⟩ := hfields
    obtain ⟨ha, hn⟩ := hwritten
    exact ⟨ha, hB rfl, hn⟩
  | y2t | t2y =>
    obtain ⟨rfl, rfl, rfl⟩ := hfields
    exact hwritten
  | t2b | b2t =>
    obtain rfl := hfields
    exact ⟨hwritten, hB rfl, hN rfl⟩

/-- Settles O3: what a word carries depends on its masked bits, and these are the word the encoder writes. -/
theorem unusedFieldsIgnored : Obligations.UnusedFieldsIgnored := by
  intro cw i h
  rw [decode_eq_ok_iff] at h
  refine ⟨wellFormed_of_carries h, encode_of_carries h, fun cw' => ?_⟩
  rw [decode_eq_ok_iff]
  constructor
  · intro heq
    rw [← carries_and_usedMask, heq, carries_and_usedMask]
    exact h
  · intro h'
    rw [← encode_of_carries h', encode_of_carries h]

end Sys2Proof
end

section
/-! Issuing a word that stands for no command (30_encoding.md R74, 60_exceptions.md R215). -/

namespace Sys2Proof.Machine

/-- The number in the field `OP` of a word. -/
theorem opField_toNat (cw : CommandWord) : (opField cw).toNat = cw.toNat % 2 ^ 32 := by
  rw [opField, BitVec.extractLsb'_toNat, Nat.shiftRight_zero]

theorem opField_eq_ofNat (cw : CommandWord) : opField cw = BitVec.ofNat 32 cw.toNat :=
  BitVec.eq_of_toNat_eq (opField_toNat cw)

/-- A rejected word writes `IllegalCommand` and nothing else. -/
theorem issueWord_of_decode_error {cw : CommandWord} {e : DecodeError} (h : decode cw = .error e) (s : State) :
    issueWord cw s = .next (s.setErr .illegalCommand) := by
  simp only [issueWord, h, raise_eq]

/-- Settles O4: the decoder rejects exactly these opcodes, and a step that issues a rejected word raises the error. -/
theorem illegalOpcodeOnlySetsErr : Obligations.IllegalOpcodeOnlySetsErr := by
  intro cw
  have hdecode : (cw.toNat % 2 ^ 32 = 0 ∨ 7 < cw.toNat % 2 ^ 32) ↔
      decode cw = .error (.illegalOpcode (BitVec.ofNat 32 cw.toNat)) := by
    rw [decode_eq_error_iff, opField_toNat, opField_eq_ofNat, and_iff_left rfl]
  refine ⟨hdecode, fun hop s rest hp => ?_⟩
  rw [step_of_pending_cons hp]
  exact issueWord_of_decode_error (hdecode.1 hop) _

end Sys2Proof.Machine
end

section
/-! The line of a command, read by the assembler (30_encoding.md R84). -/

namespace Sys2Proof

/-- A line says a well-formed command or none. -/
theorem wellFormed_of_readCommand {line : String} {i : Instr} (h : readCommand line = some i) :
    i.wellFormed = true :=
  (Option.filter_eq_some_iff.1 h).2

/-- The four readings of a row of R86 follow from three: the decoder's is that of the encoder's word. -/
theorem worked_of_readCommand {text : String} {cw : CommandWord} {i : Instr} (hread : readCommand text = some i)
    (hcw : encode i = cw) (htext : i.asmText = text) :
    assemble text = some cw ∧ decode cw = .ok i ∧ encode i = cw ∧ i.asmText = text :=
  ⟨by rw [assemble, hread, Option.map_some, hcw], hcw ▸ decodeOfEncode i (wellFormed_of_readCommand hread), hcw, htext⟩

/-- Settles O1: each row is read as its command and spelled as it stands, and the encoder's word decodes to the
command. -/
theorem workedEncodings : Obligations.WorkedEncodings := by
  intro text cw i h
  simp only [List.mem_cons, List.not_mem_nil, or_false, Prod.mk.injEq] at h
  rcases h with ⟨rfl, rfl, rfl⟩ | ⟨rfl, rfl, rfl⟩ | ⟨rfl, rfl, rfl⟩ | ⟨rfl, rfl, rfl⟩ | ⟨rfl, rfl, rfl⟩ |
    ⟨rfl, rfl, rfl⟩ | ⟨rfl, rfl, rfl⟩ | ⟨rfl, rfl, rfl⟩
  all_goals exact worked_of_readCommand (by decide) (by decide) (by decide)

end Sys2Proof
end

section
/-! STATUS as the host reads it, and the value of a chunk rendered into its bytes (30_encoding.md R81 to R83). -/

namespace Sys2Proof.Machine

/-- A vector made from an integer holds its remainder. -/
theorem ofInt_toNat_cast (w : Nat) (v : Int) : ((BitVec.ofInt w v).toNat : Int) = v % 2 ^ w := by
  rw [BitVec.toNat_ofInt, Int.toNat_of_nonneg (Int.emod_nonneg _ (by positivity)), Nat.cast_pow, Nat.cast_ofNat]

/-- The bytes of `render` are the digits of the remainder (30_encoding.md R81). -/
theorem blockByte_render (v : Int) (j : Nat) :
    ((blockByte (render v) j).toNat : Int) = v % 2 ^ 384 / 256 ^ (47 - j) % 256 := by
  rw [blockByte_toNat, Int.natCast_emod, Int.natCast_ediv, render, ofInt_toNat_cast, Nat.cast_pow, Nat.cast_ofNat]

/-- Settles O16: a chunk is a two's-complement vector, so its value is in range and determines it; the bytes of `render`
are the digits of the remainder. -/
theorem renderAndValueInverse : Obligations.RenderAndValueInverse := by
  refine ⟨fun b => ⟨BitVec.le_toInt b, Int.le_sub_one_of_lt BitVec.toInt_lt⟩,
    fun v hlo hhi => ⟨?_, fun j _ => blockByte_render v j⟩, fun b => BitVec.ofInt_toInt⟩
  exact BitVec.toInt_ofInt_eq_self (by decide) hlo (Int.lt_of_le_sub_one hhi)

/-- The two fields of STATUS, at their places (10_state.md R27). -/
theorem statusWord_toNat (s : State) : (statusWord s).toNat = s.err.code.toNat + 16 * s.phase.code.toNat := by
  have herr := s.err.code.isLt
  rw [statusWord, BitVec.toNat_append, BitVec.toNat_append, ← Nat.shiftLeft_add_eq_or_of_lt herr]
  simp [Nat.shiftLeft_eq]
  omega

/-- Settles O14: the codes are those of the two tables, and the host is handed the word they make up. -/
theorem statusCodes : Obligations.StatusCodes := by
  refine ⟨⟨rfl, rfl, rfl, rfl, rfl, rfl, rfl⟩, ⟨rfl, rfl, rfl, fun ph => ?_⟩, fun s rest hp => ?_⟩
  · cases ph <;> decide
  · rw [step_of_pending_cons hp]
    exact ⟨_, rfl, statusWord_toNat _⟩

end Sys2Proof.Machine
end

section
/-! The tryte alphabet: the rows of the table, the value of a triple, and the symbol of a value (30_encoding.md R78 to
R80). -/

namespace Sys2Proof.Machine

/-- The value of the symbol at a position of the alphabet (30_encoding.md R78). -/
def positionValue (pos : Nat) : Int := if pos ≤ 13 then pos else pos - 27

/-- The row of the table at each position: the code of its symbol, and a triple of its value. -/
theorem tryteTable_row (pos : Nat) (h : pos < 27) : ∃ t0 t1 t2,
    tryteTable[pos]? = some (symbolAt pos, t0, t1, t2) ∧ tripleValue t0 t1 t2 = positionValue pos := by
  have hrows : ∀ pos < 27, tryteTable[pos]?.map (fun row => (row.1, tripleValue row.2.1 row.2.2.1 row.2.2.2)) =
      some (symbolAt pos, positionValue pos) := by decide
  obtain ⟨⟨c, t0, t1, t2⟩, hrow, heq⟩ := Option.map_eq_some_iff.1 (hrows pos h)
  obtain ⟨rfl, hvalue⟩ := Prod.mk.inj heq
  exact ⟨t0, t1, t2, hrow, hvalue⟩

/-- The lookup of a symbol finds the row at its position. -/
theorem symToTriple_symbolAt : ∀ pos < 27, symToTriple (symbolAt pos) = tryteTable[pos]?.map (·.2) := by decide

/-- The symbol at a position has the value of the position. -/
theorem symToTriple_symbolAt_value (pos : Nat) (h : pos < 27) : ∃ t0 t1 t2,
    symToTriple (symbolAt pos) = some (t0, t1, t2) ∧ tripleValue t0 t1 t2 = positionValue pos := by
  obtain ⟨t0, t1, t2, hrow, hvalue⟩ := tryteTable_row pos h
  exact ⟨t0, t1, t2, by rw [symToTriple_symbolAt pos h, hrow]; rfl, hvalue⟩

/-- The symbol of each value from −13 to 13 is at the position of the value modulo 27. -/
theorem symToTriple_of_value (v : Int) (hlo : -13 ≤ v) (hhi : v ≤ 13) : ∃ t0 t1 t2,
    symToTriple (symbolAt (v % 27).toNat) = some (t0, t1, t2) ∧ tripleValue t0 t1 t2 = v := by
  obtain ⟨t0, t1, t2, hsym, hvalue⟩ := symToTriple_symbolAt_value (v % 27).toNat (by omega)
  refine ⟨t0, t1, t2, hsym, hvalue.trans ?_⟩
  unfold positionValue
  omega

/-- Settles O25: the table is the alphabet, and its row at each position has the value of the position. -/
theorem alphabetValues : Obligations.AlphabetValues :=
  ⟨by decide, tryteTable_row, fun k hk => symToTriple_of_value (k - 13) (by omega) (by omega)⟩

theorem Trit.toInt_injective (t u : Trit) (h : t.toInt = u.toInt) : t = u := by
  revert h
  cases t <;> cases u <;> decide

@[simp] theorem Trit.toInt_negate (t : Trit) : t.negate.toInt = -t.toInt := by
  cases t <;> rfl

theorem tripleValue_bounds (t0 t1 t2 : Trit) : -13 ≤ tripleValue t0 t1 t2 ∧ tripleValue t0 t1 t2 ≤ 13 := by
  have h0 := Trit.toInt_bounds t0
  have h1 := Trit.toInt_bounds t1
  have h2 := Trit.toInt_bounds t2
  unfold tripleValue
  omega

/-- Three balanced digits are determined by their value. -/
theorem tripleValue_injective {t0 t1 t2 u0 u1 u2 : Trit} (h : tripleValue t0 t1 t2 = tripleValue u0 u1 u2) :
    (t0, t1, t2) = (u0, u1, u2) := by
  have ht0 := Trit.toInt_bounds t0
  have ht1 := Trit.toInt_bounds t1
  have hu0 := Trit.toInt_bounds u0
  have hu1 := Trit.toInt_bounds u1
  unfold tripleValue at h
  have h0 : t0 = u0 := Trit.toInt_injective _ _ (by omega)
  have h1 : t1 = u1 := Trit.toInt_injective _ _ (by omega)
  have h2 : t2 = u2 := Trit.toInt_injective _ _ (by omega)
  rw [h0, h1, h2]

/-- The symbol of a triple has that triple. -/
theorem symToTriple_tripleToSym (t0 t1 t2 : Trit) : symToTriple (tripleToSym t0 t1 t2) = some (t0, t1, t2) := by
  obtain ⟨hlo, hhi⟩ := tripleValue_bounds t0 t1 t2
  obtain ⟨u0, u1, u2, hsym, hvalue⟩ := symToTriple_of_value _ hlo hhi
  rw [tripleToSym, hsym, tripleValue_injective hvalue]

/-- A code that has a triple is the symbol of the triple. -/
theorem tripleToSym_of_symToTriple {c : Byte} {t0 t1 t2 : Trit} (h : symToTriple c = some (t0, t1, t2)) :
    tripleToSym t0 t1 t2 = c := by
  have hrows : ∀ row ∈ tryteTable, tripleToSym row.2.1 row.2.2.1 row.2.2.2 = row.1 := by decide
  obtain ⟨⟨d, u⟩, hfind, rfl⟩ := Option.map_eq_some_iff.1 h
  obtain rfl : d = c := by simpa using List.find?_some hfind
  exact hrows _ (List.mem_of_find?_eq_some hfind)

theorem tripleValue_negate (t0 t1 t2 : Trit) :
    tripleValue t0.negate t1.negate t2.negate = -tripleValue t0 t1 t2 := by
  simp only [tripleValue, Trit.toInt_negate]
  ring

/-- Opposite values are at positions that add up to 27, the value 0 at position 0. -/
theorem neg_positionValue_mod (pos : Nat) (h : pos < 27) :
    (-positionValue pos % 27).toNat = (27 - pos) % 27 := by
  unfold positionValue
  omega

/-- Settles O27: a triple is that of its own symbol alone, and the symbol of the opposite value is at the paired
position. -/
theorem negationPairsSymbols : Obligations.NegationPairsSymbols := by
  refine ⟨fun t0 t1 t2 => ?_, tripleValue_negate, fun pos hpos => ?_⟩
  · exact ⟨_, symToTriple_tripleToSym t0 t1 t2, fun c hc => (tripleToSym_of_symToTriple hc).symm⟩
  · obtain ⟨t0, t1, t2, hsym, hvalue⟩ := symToTriple_symbolAt_value pos hpos
    have hopposite : tripleToSym t0.negate t1.negate t2.negate = symbolAt ((27 - pos) % 27) := by
      rw [tripleToSym, tripleValue_negate, hvalue, neg_positionValue_mod pos hpos]
    rw [← hopposite, symToTriple_tripleToSym, hsym, Option.map_some]

end Sys2Proof.Machine
end

section
/-! The tryte lookup over strings (40_tryte_lookup.md R100 to R103): `trytesToTrits` and `groupSymbols` are inverse, and
symbol `j` goes with the trits `3j`, `3j + 1` and `3j + 2`. -/

namespace Sys2Proof.Machine

/-- The codes that have a triple are those of the table. -/
theorem symToTriple_isSome_iff (c : Byte) : (symToTriple c).isSome ↔ c ∈ tryteTable.map (·.1) := by
  simp [symToTriple, List.find?_isSome]

/-- The codes from 0 to 255 that have a triple are, each once, those of the 27 rows of the table. -/
theorem validCodes_perm :
    ((List.range 256).filter fun c => (symToTriple (BitVec.ofNat 8 c)).isSome).Perm
      (tryteTable.map (·.1.toNat)) := by
  refine (List.perm_ext_iff_of_nodup (List.nodup_range.filter _) (by decide)).2 fun n => ?_
  rw [List.mem_filter, List.mem_range, symToTriple_isSome_iff, List.mem_map, List.mem_map]
  constructor
  · rintro ⟨hn, row, hrow, hcode⟩
    exact ⟨row, hrow, by rw [hcode, BitVec.toNat_ofNat, Nat.mod_eq_of_lt hn]⟩
  · rintro ⟨row, hrow, rfl⟩
    exact ⟨row.1.isLt, row, hrow, (BitVec.ofNat_toNat 8 row.1).symm⟩

/-- Settles O26: of the 256 codes the 27 of the table are valid, which leaves 229. -/
theorem lookupTablesInverse : Obligations.LookupTablesInverse := by
  refine ⟨fun _ _ _ _ => tripleToSym_of_symToTriple, symToTriple_tripleToSym, ?_⟩
  have hsplit := List.length_eq_length_filter_add (l := List.range 256)
    fun c => (symToTriple (BitVec.ofNat 8 c)).isSome
  have hvalid : tryteTable.length = 27 := rfl
  simp only [Option.not_isSome, validCodes_perm.length_eq, List.length_map, hvalid, List.length_range] at hsplit
  omega

theorem trytesToTrits_cons_ok_iff (c : Byte) (cs : List Byte) (ts : List Trit) :
    trytesToTrits (c :: cs) = .ok ts ↔ ∃ t0 t1 t2 us,
      symToTriple c = some (t0, t1, t2) ∧ trytesToTrits cs = .ok us ∧ ts = t0 :: t1 :: t2 :: us := by
  rw [trytesToTrits]
  cases symToTriple c with
  | none => simp
  | some t =>
    cases trytesToTrits cs with
    | error e => simp
    | ok us =>
      obtain ⟨t0, t1, t2⟩ := t
      constructor
      · rintro ⟨⟩
        exact ⟨t0, t1, t2, us, rfl, rfl, rfl⟩
      · rintro ⟨_, _, _, _, ⟨⟩, ⟨⟩, rfl⟩
        rfl

/-- The trits of a string group back into its symbols. -/
theorem groupSymbols_of_trytesToTrits {cs : List Byte} {ts : List Trit} (h : trytesToTrits cs = .ok ts) :
    groupSymbols ts = cs := by
  induction cs generalizing ts with
  | nil =>
    cases h
    rfl
  | cons c cs ih =>
    obtain ⟨t0, t1, t2, us, hc, hus, rfl⟩ := (trytesToTrits_cons_ok_iff c cs ts).1 h
    rw [groupSymbols, tripleToSym_of_symToTriple hc, ih hus]

/-- The symbols of whole groups give the trits of the groups. -/
theorem trytesToTrits_groupSymbols (ts : List Trit) (h : ts.length % 3 = 0) :
    trytesToTrits (groupSymbols ts) = .ok ts := by
  induction ts using groupSymbols.induct with
  | case1 t0 t1 t2 ts ih =>
    have hrest : ts.length % 3 = 0 := by simpa [Nat.add_assoc] using h
    exact (trytesToTrits_cons_ok_iff _ _ _).2
      ⟨t0, t1, t2, ts, symToTriple_tripleToSym t0 t1 t2, ih hrest, rfl⟩
  | case2 ts hshort =>
    match ts, h with
    | [], _ => rfl
    | t0 :: t1 :: t2 :: us, _ => exact absurd rfl (hshort t0 t1 t2 us)

/-- A string of symbols of the alphabet has its trits. -/
theorem exists_trytesToTrits (cs : List Byte) (h : ∀ c ∈ cs, symToTriple c ≠ none) :
    ∃ ts, trytesToTrits cs = .ok ts := by
  cases hts : trytesToTrits cs with
  | ok ts => exact ⟨ts, rfl⟩
  | error e =>
    obtain ⟨-, c, hc, hnone⟩ := trytesToTrits_error cs e hts
    exact absurd hnone (h c hc)

/-- Settles O28: the trits of a string are three for each symbol and group back into it, and the symbols of whole groups
give the trits of the groups. -/
theorem tryteStringsRoundTrip : Obligations.TryteStringsRoundTrip := by
  refine ⟨fun cs ts h => ?_, fun ts h => ?_⟩
  · have hlen := (trytesToTrits_spec cs ts h).1
    exact ⟨hlen, by rw [tritsToTrytes_of_length ts (by omega), groupSymbols_of_trytesToTrits h]⟩
  · exact ⟨groupSymbols ts, tritsToTrytes_of_length ts h, trytesToTrits_groupSymbols ts h⟩

/-- Symbol `j` is that of the trits `3j`, `3j + 1` and `3j + 2`. -/
theorem groupSymbols_getElem? (ts : List Trit) (j : Nat) (h : 3 * j + 2 < ts.length) : ∃ t0 t1 t2,
    ts[3 * j]? = some t0 ∧ ts[3 * j + 1]? = some t1 ∧ ts[3 * j + 2]? = some t2 ∧
      (groupSymbols ts)[j]? = some (tripleToSym t0 t1 t2) := by
  induction j generalizing ts with
  | zero =>
    match ts, h with
    | t0 :: t1 :: t2 :: us, _ => exact ⟨t0, t1, t2, rfl, rfl, rfl, rfl⟩
  | succ j ih =>
    match ts, h with
    | _ :: _ :: _ :: us, h => exact ih us (by simp only [List.length_cons] at h; omega)

end Sys2Proof.Machine
end

section
/-! The commands Y2T and T2Y where the cells they read hold what they need (40_tryte_lookup.md R104, R105). -/

namespace Sys2Proof.Machine

/-- Y2T of a string that has trits completes and writes them. -/
theorem y2tWith_of_holdsCells {p : Params} {s : State} {a b : Nat} {cs : List Byte} {ts : List Trit}
    (hb : b + cs.length ≤ p.sizeY) (ha : a + 3 * cs.length ≤ p.sizeT) (hcells : HoldsCells s.ymem b cs)
    (hts : trytesToTrits cs = .ok ts) :
    y2tWith p a b cs.length s = .next ((s.setTmem (writeTrits s.tmem a ts)).setErr .ok) := by
  have hread : s.ymem.readCells b (cs.length : Int).toNat = .ok cs := readCells_of_holdsCells _ _ _ hcells
  rcases y2tWith_cases p a b cs.length s with
    ⟨hrange, -⟩ | ⟨-, -, -, ⟨r, hr, -⟩ | ⟨cs', hcs', ⟨e, he, -⟩ | ⟨ts', hts', h⟩⟩⟩
  · omega
  · cases hread.symm.trans hr
  · cases hread.symm.trans hcs'
    cases hts.symm.trans he
  · cases hread.symm.trans hcs'
    cases hts.symm.trans hts'
    exact h

/-- T2Y of whole groups completes and writes their symbols. -/
theorem t2yWith_of_holdsTrits {p : Params} {s : State} {a b : Nat} {ts : List Trit} (hlen : ts.length % 3 = 0)
    (ha : a + ts.length ≤ p.sizeT) (hb : b + ts.length / 3 ≤ p.sizeY) (htrits : HoldsTrits s.tmem a ts) :
    t2yWith p a b ts.length s = .next ((s.setYmem (s.ymem.writeCells b (groupSymbols ts))).setErr .ok) := by
  have hread : readTrits s.tmem a (ts.length : Int).toNat = .ok ts := readTrits_of_holdsTrits _ _ _ htrits
  rcases t2yWith_cases p a b ts.length s with
    ⟨hmod, -⟩ | ⟨-, ⟨hrange, -⟩ | ⟨-, -, -, ⟨r, hr, -⟩ | ⟨ts', hts', -, h⟩⟩⟩
  · omega
  · omega
  · cases hread.symm.trans hr
  · cases hread.symm.trans hts'
    exact h

/-- A cell outside the range written keeps what it held. -/
theorem Memory.read_writeCells_of_outside {w : Nat} (m : Memory w) {a c : Nat} {vs : List (BitVec w)}
    (h : c < a ∨ a + vs.length ≤ c) : (m.writeCells a vs).read c = m.read c := by
  rw [Memory.read_writeCells, if_neg (by omega)]

theorem read_writeTrits_of_outside (m : Memory 2) {a c : Nat} {ts : List Trit} (h : c < a ∨ a + ts.length ≤ c) :
    (writeTrits m a ts).read c = m.read c :=
  Memory.read_writeCells_of_outside m (by simpa using h)

/-- The cell at an offset inside the range written holds the element at the offset. -/
theorem Memory.read_writeCells_of_getElem? {w : Nat} (m : Memory w) (a : Nat) {vs : List (BitVec w)} {i : Nat}
    {v : BitVec w} (h : vs[i]? = some v) : (m.writeCells a vs).read (a + i) = some v := by
  obtain ⟨hi, rfl⟩ := List.getElem?_eq_some_iff.1 h
  exact holdsCells_writeCells m a vs i hi

theorem read_writeTrits_of_getElem? (m : Memory 2) (a : Nat) {ts : List Trit} {i : Nat} {t : Trit}
    (h : ts[i]? = some t) : (writeTrits m a ts).read (a + i) = some t.pattern :=
  Memory.read_writeCells_of_getElem? m a (by rw [List.getElem?_map, h]; rfl)

/-- Settles O42: symbol `j` of the string is that of the three trits Y2T writes at `A + 3j`, and so has them as its
triple. -/
theorem y2tWritesTriples : Obligations.Y2tWritesTriples := by
  intro s a b cs hb ha hcells hvalid
  obtain ⟨ts, hts⟩ := exists_trytesToTrits cs hvalid
  have hlen := (trytesToTrits_spec cs ts hts).1
  refine ⟨writeTrits s.tmem a ts, y2tWith_of_holdsCells hb ha hcells hts, fun j hj => ?_, fun c hc => ?_⟩
  · obtain ⟨t0, t1, t2, h0, h1, h2, hsym⟩ := groupSymbols_getElem? ts j (by omega)
    rw [groupSymbols_of_trytesToTrits hts, List.getElem?_eq_getElem hj, Option.some.injEq] at hsym
    exact ⟨t0, t1, t2, by rw [hsym, symToTriple_tripleToSym], read_writeTrits_of_getElem? _ _ h0,
      read_writeTrits_of_getElem? _ _ h1, read_writeTrits_of_getElem? _ _ h2⟩
  · exact read_writeTrits_of_outside _ (by omega)

/-- Settles O44: T2Y writes the symbols of the groups, one to a cell. -/
theorem t2yWritesSymbols : Obligations.T2yWritesSymbols := by
  intro s a b ts hlen ha hb htrits
  have hcount := groupSymbols_length (ts.length / 3) ts (by omega)
  refine ⟨s.ymem.writeCells b (groupSymbols ts), t2yWith_of_holdsTrits hlen ha hb htrits,
    fun j hj => ?_, fun c hc => ?_⟩
  · obtain ⟨t0, t1, t2, h0, h1, h2, hsym⟩ := groupSymbols_getElem? ts j (by omega)
    exact ⟨t0, t1, t2, h0, h1, h2, Memory.read_writeCells_of_getElem? _ _ hsym⟩
  · exact Memory.read_writeCells_of_outside _ (by omega)

/-- Settles O49: T2Y reads the trits Y2T has written, and they group back into the string. -/
theorem y2tThenT2yCopiesString : Obligations.Y2tThenT2yCopiesString := by
  intro p s a b b' cs hb hb' ha hcells hvalid
  obtain ⟨ts, hts⟩ := exists_trytesToTrits cs hvalid
  have hlen := (trytesToTrits_spec cs ts hts).1
  have hcopy := t2yWith_of_holdsTrits (p := p) (b := b')
    (s := (s.setTmem (writeTrits s.tmem a ts)).setErr .ok) (by omega) (by omega) (by omega)
    (holdsTrits_writeTrits s.tmem a ts)
  rw [groupSymbols_of_trytesToTrits hts, hlen, Nat.cast_mul] at hcopy
  refine ⟨writeTrits s.tmem a ts, s.ymem.writeCells b' cs, ?_, holdsCells_writeCells _ _ _,
    fun c hc => Memory.read_writeCells_of_outside _ hc⟩
  rw [commandWith, y2tWith_of_holdsCells hb ha hcells hts]
  exact hcopy

end Sys2Proof.Machine
end

section
/-! Balanced ternary (41_base_conversion.md R120 to R124, R134): the value of a trit sequence, the digit step, and the one
form a number has. -/

namespace Sys2Proof.Machine

/-- The value of a sequence is the weighted sum of its trits. -/
theorem tritValue_eq_sum (ts : List Trit) :
    tritValue ts = ((List.range ts.length).map fun i => (ts.getD i .zero).toInt * 3 ^ i).sum := by
  induction ts with
  | nil => rfl
  | cons t ts ih =>
    rw [tritValue_cons, ih, List.length_cons, List.range_succ_eq_map, List.map_cons, List.sum_cons, List.map_map,
      ← List.sum_map_mul_left]
    simp [Function.comp_def, pow_succ', mul_left_comm]

@[simp] theorem tritValue_replicate_zero (n : Nat) : tritValue (List.replicate n .zero) = 0 := by
  induction n with
  | zero => rfl
  | succ n ih => rw [List.replicate_succ, tritValue_cons, ih]; rfl

/-- The sequence of `n` trits +1 has the largest value. -/
theorem two_mul_tritValue_replicate_pos (n : Nat) : 2 * tritValue (List.replicate n .pos) = 3 ^ n - 1 := by
  induction n with
  | zero => rfl
  | succ n ih =>
    rw [List.replicate_succ, tritValue_cons, pow_succ, Trit.toInt]
    linarith

theorem tritValue_map_negate (ts : List Trit) : tritValue (ts.map Trit.negate) = -tritValue ts := by
  induction ts with
  | nil => rfl
  | cons t ts ih =>
    rw [List.map_cons, tritValue_cons, tritValue_cons, ih, Trit.toInt_negate]
    ring

/-- Settles O17, by induction on the sequence. -/
theorem tritValueIsWeightedSum : Obligations.TritValueIsWeightedSum :=
  ⟨tritValue_eq_sum, tritValue_replicate_zero 243, tritValue_map_negate⟩

/-- A digit and a quotient that make up `q` are those of the digit step: the digits differ by less than 3. -/
theorem bal3_eq_of_sum {q q' : Int} {d : Trit} (h : q = d.toInt + 3 * q') : bal3 q = (d, q') := by
  have hsum := bal3_sum q
  have hd := Trit.toInt_bounds d
  have hb := Trit.toInt_bounds (bal3 q).1
  have hdigit : (bal3 q).1 = d := Trit.toInt_injective _ _ (by omega)
  rw [hdigit] at hsum
  exact Prod.ext hdigit (by dsimp only; omega)

/-- Settles O19: the digit is at most 1 in magnitude and makes up `q` with the quotient. -/
theorem digitStep : Obligations.DigitStep := by
  refine ⟨fun q => ?_, by decide⟩
  have hsum := bal3_sum q
  have hd := Trit.toInt_bounds (bal3 q).1
  omega

/-- Settles O20: the digit step is determined by its sum, and the truncated form has the same sum. -/
theorem anyDigitProcedureAgrees : Obligations.AnyDigitProcedureAgrees := by
  refine ⟨fun q q' d => bal3_eq_of_sum, fun q => ?_⟩
  have htrunc := Int.tmod_add_mul_tdiv q 3
  refine ⟨fun h => bal3_eq_of_sum ?_, fun h => bal3_eq_of_sum ?_, fun h2 hneg2 => ?_⟩
  · simp only [Trit.toInt]
    omega
  · simp only [Trit.toInt]
    omega
  · have hlo := Int.lt_tmod_of_pos q (show (0 : Int) < 3 by decide)
    have hhi := Int.tmod_lt_of_pos q (show (0 : Int) < 3 by decide)
    have hsum := bal3_sum q
    have hd := Trit.toInt_bounds (bal3 q).1
    omega

/-- The trits and the quotient that make up `v` are those of the digit steps. -/
theorem digits_eq_iff (n : Nat) (v : Int) (ts : List Trit) (r : Int) :
    digits n v = (ts, r) ↔ ts.length = n ∧ tritValue ts + 3 ^ n * r = v := by
  constructor
  · intro h
    simpa only [h] using digits_sum n v
  · rintro ⟨rfl, rfl⟩
    induction ts with
    | nil => simp [digits]
    | cons t ts ih =>
      have hstep : bal3 (tritValue (t :: ts) + 3 ^ (t :: ts).length * r) = (t, tritValue ts + 3 ^ ts.length * r) := by
        refine bal3_eq_of_sum ?_
        rw [tritValue_cons, List.length_cons, pow_succ]
        ring
      rw [List.length_cons, digits_succ, ← List.length_cons, hstep, ih]

/-- A sequence is what the digit steps give of its value, which they use up. -/
theorem digits_tritValue {n : Nat} {ts : List Trit} (hlen : ts.length = n) : digits n (tritValue ts) = (ts, 0) :=
  (digits_eq_iff n _ ts 0).2 ⟨hlen, by ring⟩

/-- Sequences of one length with one value are equal. -/
theorem eq_of_tritValue_eq {ts us : List Trit} (hlen : ts.length = us.length) (h : tritValue ts = tritValue us) :
    ts = us := by
  have hts := digits_tritValue hlen
  rw [h, digits_tritValue rfl] at hts
  exact (Prod.mk.inj hts).1.symm

/-- The bound of R124 on a magnitude, without the division. -/
theorem abs_le_half_iff (v x : Int) : |v| ≤ (x - 1) / 2 ↔ -(x - 1) ≤ 2 * v ∧ 2 * v ≤ x - 1 := by
  rw [abs_le]
  omega

theorem abs_tritValue_le (ts : List Trit) : |tritValue ts| ≤ (3 ^ ts.length - 1) / 2 :=
  (abs_le_half_iff _ _).2 (two_mul_tritValue_bounds ts)

/-- `n` digit steps use a number up exactly where `n` trits can hold it: what is left has weight `3 ^ n`. -/
theorem digits_snd_eq_zero_iff (n : Nat) (v : Int) : (digits n v).2 = 0 ↔ |v| ≤ (3 ^ n - 1) / 2 := by
  obtain ⟨hlen, hsum⟩ := digits_sum n v
  have hbound := two_mul_tritValue_bounds (digits n v).1
  rw [hlen] at hbound
  constructor
  · intro h
    rw [h, mul_zero, add_zero] at hsum
    exact (abs_le_half_iff _ _).2 (hsum ▸ hbound)
  · intro h
    have hv := (abs_le_half_iff _ _).1 h
    have hpow : (0 : Int) < 3 ^ n := by positivity
    have hlo : -1 < (digits n v).2 := by nlinarith
    have hhi : (digits n v).2 < 1 := by nlinarith
    omega

/-- A number that `n` trits can hold is the value of its `n` digits. -/
theorem tritValue_digits {n : Nat} {v : Int} (h : |v| ≤ (3 ^ n - 1) / 2) : tritValue (digits n v).1 = v := by
  simpa [(digits_snd_eq_zero_iff n v).2 h] using (digits_sum n v).2

/-- Settles O21: the digits of a number in range have its value, and no other sequence of their length has; every
value is in range, so a number out of it has no form and is not used up. -/
theorem balancedTernaryUnique : Obligations.BalancedTernaryUnique := by
  refine fun n => ⟨fun v hv => ?_, fun v hv => ?_, fun ts hlen => hlen ▸ abs_tritValue_le ts⟩
  · have hlen := (digits_sum n v).1
    refine ⟨(digits_snd_eq_zero_iff n v).2 hv, hlen, tritValue_digits hv, fun ts hts hval => ?_⟩
    exact eq_of_tritValue_eq (hts.trans hlen.symm) (hval.trans (tritValue_digits hv).symm)
  · refine ⟨fun h => hv.not_ge ((digits_snd_eq_zero_iff n v).1 h), fun ts hlen hval => hv.not_ge ?_⟩
    exact hval ▸ hlen ▸ abs_tritValue_le ts

/-- Without its top trit, the value of `n + 1` trits is in the range of `n`. -/
theorem two_mul_tritValue_sub_top_bounds {n : Nat} {ts : List Trit} {t : Trit} (hlen : ts.length = n + 1)
    (htop : ts[n]? = some t) :
    -(3 ^ n - 1) ≤ 2 * (tritValue ts - 3 ^ n * t.toInt) ∧ 2 * (tritValue ts - 3 ^ n * t.toInt) ≤ 3 ^ n - 1 := by
  obtain ⟨us, rfl⟩ : ∃ us, ts = us ++ [t] := by
    rw [← List.getLast?_eq_some_iff, List.getLast?_eq_getElem?, hlen, Nat.add_sub_cancel, htop]
  obtain rfl : us.length = n := by simpa using hlen
  simpa [tritValue_append] using two_mul_tritValue_bounds us

end Sys2Proof.Machine
end

section
/-! The 384-bit converter (41_base_conversion.md R121, R125 to R129): each of the two functions answers exactly the chunk
of the same value, so they are inverse. -/

namespace Sys2Proof.Machine

/-- The weight of the top trit of a chunk is past the signed range of 384 bits; the corrected inequalities of R121 follow. -/
theorem two_pow_383_lt : (2 : Int) ^ 383 < 3 ^ 242 :=
  calc (2 : Int) ^ 383 = 2 ^ 191 * 2 ^ 192 := by rw [← pow_add]
    _ < 3 ^ 121 * 3 ^ 121 := by norm_num
    _ = 3 ^ 242 := by rw [← pow_add]

/-- Every value of 384 bits is in the range of 243 trits. -/
theorem two_pow_383_lt_half : (2 : Int) ^ 383 < (3 ^ 243 - 1) / 2 := by
  have hweight := two_pow_383_lt
  have hpos : (0 : Int) < 2 ^ 383 := by positivity
  have htop : (3 : Int) ^ 243 = 3 ^ 242 * 3 := pow_succ _ _
  rw [htop]
  generalize (3 : Int) ^ 242 = x at hweight
  generalize (2 : Int) ^ 383 = y at *
  omega

theorem two_pow_384_lt : (2 : Int) ^ 384 < 3 ^ 243 := by
  have hhalf := two_pow_383_lt_half
  have htop : (2 : Int) ^ 384 = 2 ^ 383 * 2 := pow_succ _ _
  rw [htop]
  generalize (3 : Int) ^ 243 = x at *
  generalize (2 : Int) ^ 383 = y at *
  omega

/-- Settles O18: a chunk is 243 trits, and without its top trit 242; the inequalities are on closed numbers. -/
theorem tritValueRange : Obligations.TritValueRange := by
  refine ⟨fun ts hlen => ?_, ?_, ?_, two_pow_384_lt, two_pow_383_lt_half⟩
  · have hall := two_mul_tritValue_bounds ts
    rw [hlen] at hall
    have htop := fun t => two_mul_tritValue_sub_top_bounds (t := t) (n := 242) hlen
    generalize (3 : Int) ^ 243 = x at *
    generalize (3 : Int) ^ 242 = y at *
    refine ⟨by omega, by omega, fun h => ?_, fun h => ?_, fun h => ?_⟩
    · have hzero := htop .zero h
      simp only [Trit.toInt] at hzero
      omega
    · have hpos := htop .pos h
      simp only [Trit.toInt] at hpos
      omega
    · have hneg := htop .neg h
      simp only [Trit.toInt] at hneg
      omega
  · have hpos := two_mul_tritValue_replicate_pos 243
    omega
  · have hbetween := three_pow_between.1
    omega

/-- The value of a block is in the signed range of 384 bits. -/
theorem blockValue_bounds (b : Block) : -(2 ^ 383) ≤ blockValue b ∧ blockValue b ≤ 2 ^ 383 - 1 :=
  renderAndValueInverse.1 b

theorem blockValue_render {v : Int} (hlo : -(2 ^ 383) ≤ v) (hhi : v ≤ 2 ^ 383 - 1) : blockValue (render v) = v :=
  (renderAndValueInverse.2.1 v hlo hhi).1

theorem render_blockValue (b : Block) : render (blockValue b) = b :=
  renderAndValueInverse.2.2 b

theorem blockValue_injective : Function.Injective blockValue :=
  Function.LeftInverse.injective render_blockValue

/-- `tritsToBytes` answers the block of the value of the trits, where there is one. -/
theorem tritsToBytes_eq_ok_iff_value (ts : List Trit) (b : Block) :
    tritsToBytes ts = .ok b ↔ tritValue ts = blockValue b := by
  rw [tritsToBytes_ok_iff]
  constructor
  · rintro ⟨hlo, hhi, rfl⟩
    exact (blockValue_render hlo hhi).symm
  · intro h
    obtain ⟨hlo, hhi⟩ := blockValue_bounds b
    rw [h]
    exact ⟨hlo, hhi, (render_blockValue b).symm⟩

/-- `bytesToTrits` answers the chunk of the value of the block. -/
theorem bytesToTrits_ok_iff (b : Block) (ts : List Trit) :
    bytesToTrits b = .ok ts ↔ ts.length = 243 ∧ tritValue ts = blockValue b := by
  refine ⟨bytesToTrits_spec b ts, fun ⟨hlen, hval⟩ => ?_⟩
  unfold bytesToTrits
  rw [← hval, digits_tritValue hlen]
  rfl

/-- The two functions are inverse, wherever either answers. -/
theorem bytesToTrits_ok_iff_tritsToBytes (b : Block) (ts : List Trit) :
    bytesToTrits b = .ok ts ↔ ts.length = 243 ∧ tritsToBytes ts = .ok b := by
  rw [bytesToTrits_ok_iff, tritsToBytes_eq_ok_iff_value]

/-- The range of 384 bits is inside that of 243 trits, so every block has its chunk (41_base_conversion.md R127 (a)). -/
theorem exists_bytesToTrits (b : Block) : ∃ ts, bytesToTrits b = .ok ts := by
  have hrange : |blockValue b| ≤ (3 ^ 243 - 1) / 2 := by
    obtain ⟨hlo, hhi⟩ := blockValue_bounds b
    have hhalf := two_pow_383_lt_half
    rw [abs_le]
    omega
  exact ⟨_, (bytesToTrits_ok_iff b _).2 ⟨(digits_sum 243 _).1, tritValue_digits hrange⟩⟩

/-- A value in the signed range has its block. -/
theorem tritsToBytes_of_fits {ts : List Trit} (hlo : -(2 ^ 383) ≤ tritValue ts) (hhi : tritValue ts ≤ 2 ^ 383 - 1) :
    tritsToBytes ts = .ok (render (tritValue ts)) :=
  (tritsToBytes_ok_iff _ _).2 ⟨hlo, hhi, rfl⟩

theorem tritsToBytes_of_too_large {ts : List Trit} (h : 2 ^ 383 ≤ tritValue ts) :
    tritsToBytes ts = .error .overflow :=
  (tritsToBytes_error_iff _ _).2 ⟨rfl, .inr (Int.sub_one_lt_of_le h)⟩

/-- A chunk with top trit 0 has its block (41_base_conversion.md R121, R127 (b)). -/
theorem tritsToBytes_of_top_zero {ts : List Trit} (hlen : ts.length = 243) (htop : ts[242]? = some .zero) :
    tritsToBytes ts = .ok (render (tritValue ts)) := by
  have hbound := two_mul_tritValue_sub_top_bounds hlen htop
  have hbetween := three_pow_between.1
  simp only [Trit.toInt, mul_zero, sub_zero] at hbound
  exact tritsToBytes_of_fits (by omega) (by omega)

/-- The chunk of 243 trits +1 does not fit. -/
theorem tritsToBytes_replicate_pos : tritsToBytes (List.replicate 243 .pos) = .error .overflow :=
  tritsToBytes_of_too_large (tritValueRange.2.1 ▸ two_pow_383_lt_half.le)

/-- Settles O22: each function answers the chunk of the same value; the trits +1 have a value that does not fit. -/
theorem converterBijection : Obligations.ConverterBijection := by
  refine ⟨fun b => ?_, fun b b' ts h h' => ?_, fun ts hlen => ?_, fun b ts h => ?_, ?_,
    _, List.length_replicate, tritsToBytes_replicate_pos⟩
  · obtain ⟨ts, hts⟩ := exists_bytesToTrits b
    exact ⟨ts, hts, bytesToTrits_spec b ts hts⟩
  · exact blockValue_injective ((bytesToTrits_spec b ts h).2.symm.trans (bytesToTrits_spec b' ts h').2)
  · constructor
    · rintro ⟨b, hb⟩
      exact (bytesToTrits_spec b ts hb).2 ▸ blockValue_bounds b
    · rintro ⟨hlo, hhi⟩
      exact ⟨_, (bytesToTrits_ok_iff_tritsToBytes _ ts).2 ⟨hlen, tritsToBytes_of_fits hlo hhi⟩⟩
  · exact ((bytesToTrits_ok_iff_tritsToBytes b ts).1 h).2
  · exact_mod_cast two_pow_384_lt

/-- Opposite values are rendered as opposite vectors. -/
theorem render_neg_blockValue (b : Block) : render (-blockValue b) = -b := by
  rw [render, BitVec.ofInt_neg, blockValue, BitVec.ofInt_toInt]

/-- Settles O24: the two functions are inverse wherever they answer; they answer on every block, and on every chunk with
top trit 0. -/
theorem converterRoundTrips : Obligations.ConverterRoundTrips := by
  have hround : ∀ b, ∃ ts, bytesToTrits b = .ok ts ∧ tritsToBytes ts = .ok b := fun b => by
    obtain ⟨ts, hts⟩ := exists_bytesToTrits b
    exact ⟨ts, hts, ((bytesToTrits_ok_iff_tritsToBytes b ts).1 hts).2⟩
  have hback : ∀ ts b, ts.length = 243 → tritsToBytes ts = .ok b → bytesToTrits b = .ok ts :=
    fun ts b hlen h => (bytesToTrits_ok_iff_tritsToBytes b ts).2 ⟨hlen, h⟩
  refine ⟨hround, hback, fun ts hlen htop => ?_, fun f => hround _, fun ts b _ h hmin => ⟨?_, ?_⟩⟩
  · have hbytes := tritsToBytes_of_top_zero hlen htop
    exact ⟨_, hbytes, hback ts _ hlen hbytes⟩
  · have hval := (tritsToBytes_eq_ok_iff_value ts b).1 h
    obtain ⟨hlo, hhi⟩ := blockValue_bounds b
    rw [← hval, ← tritValue_map_negate]
    rw [← hval] at hlo hhi hmin
    exact tritsToBytes_of_fits (by rw [tritValue_map_negate]; omega) (by rw [tritValue_map_negate]; omega)
  · exact (render_neg_blockValue b).trans (BitVec.neg_eq_not_add b)

end Sys2Proof.Machine
end

section
/-! Where `Overflow` cannot occur: the loops of ABSORB and SQUEEZE always end well (41_base_conversion.md R127 (c)). -/

namespace Sys2Proof.Machine

/-- Every chunk ABSORB converts has top trit 0. -/
theorem exists_absorbLoop (k : Nat) (ts : List Trit) (c : List Block) (h : 243 * k ≤ ts.length) :
    ∃ c', absorbLoop k ts c = .ok c' := by
  induction k generalizing ts c with
  | zero => exact ⟨c, rfl⟩
  | succ k ih =>
    have hchunk : (ts.take 243).length = 243 := List.length_take_of_le (by omega)
    have hblock := tritsToBytes_of_top_zero ((maskTop_length _).trans hchunk) (maskTop_top _ hchunk)
    obtain ⟨c', hc'⟩ := ih (ts.drop 243) (piUpdate c (render (tritValue (maskTop (ts.take 243)))))
      (by rw [List.length_drop]; omega)
    exact ⟨c', (Except.bind_ok_iff _ _ _).2 ⟨_, hblock, hc'⟩⟩

/-- SQUEEZE converts nothing but blocks. -/
theorem exists_squeezeLoop (p : Params) (k a : Nat) (c : List Block) (m : Memory 2) :
    ∃ r, squeezeLoop p k a c m = .ok r := by
  induction k generalizing a c m with
  | zero => exact ⟨(c, m), rfl⟩
  | succ k ih =>
    obtain ⟨t, ht⟩ := exists_bytesToTrits (piDigest p c)
    obtain ⟨r, hr⟩ := ih (a + 243) (piUpdate piNew (invertBlock (piDigest p c))) (writeTrits m a (topPolicy p t))
    exact ⟨r, (Except.bind_ok_iff _ _ _).2 ⟨t, ht, hr⟩⟩

/-- The error codes ABSORB can end with: the loop's own is not among them. -/
theorem absorbWith_err {p : Params} {a : Nat} {n : Int} {s t : State} (h : absorbWith p a n s = .next t) :
    t.err = .invalidInput ∨ t.err = .badRange ∨ t.err = .ok := by
  rcases absorbWith_cases p a n s with
    ⟨-, h'⟩ | ⟨-, -, ⟨-, h'⟩ | ⟨-, ⟨-, h'⟩ | ⟨-, ⟨r, -, h'⟩ | ⟨ts, hts, ⟨e, he, -⟩ | ⟨c, -, h'⟩⟩⟩⟩⟩
  · cases h.symm.trans h'
    exact .inl rfl
  · cases h.symm.trans h'
    exact .inr (.inl rfl)
  · cases h.symm.trans h'
  · cases h.symm.trans h'
  · have hcount := ((readTrits_ok_iff _ _ _ _).1 hts).1
    obtain ⟨c', hc'⟩ := exists_absorbLoop (n.toNat / 243) ts s.ctx (by omega)
    cases he.symm.trans hc'
  · cases h.symm.trans h'
    exact .inr (.inr rfl)

/-- The error codes SQUEEZE can end with. -/
theorem squeezeWith_err {p : Params} {a : Nat} {n : Int} {s t : State} (h : squeezeWith p a n s = .next t) :
    t.err = .invalidInput ∨ t.err = .badRange ∨ t.err = .ok := by
  rcases squeezeWith_cases p a n s with ⟨-, h'⟩ | ⟨-, -, ⟨-, h'⟩ | ⟨-, ⟨e, he, -⟩ | ⟨c, m, -, h'⟩⟩⟩
  · cases h.symm.trans h'
    exact .inl rfl
  · cases h.symm.trans h'
    exact .inr (.inl rfl)
  · obtain ⟨r, hr⟩ := exists_squeezeLoop p (n.toNat / 243) a s.ctx s.tmem
    cases he.symm.trans hr
  · cases h.symm.trans h'
    exact .inr (.inr rfl)

/-- Settles O23: every block has its chunk and every chunk with top trit 0 its block, and these are all the engine
converts; the three examples have values of at least 2^383. -/
theorem overflowReachability : Obligations.OverflowReachability := by
  refine ⟨fun b e h => ?_, tritsToBytes_replicate_pos, tritsToBytes_of_too_large ?_, tritsToBytes_of_too_large ?_,
    fun ts hlen htop => ⟨_, tritsToBytes_of_top_zero hlen htop⟩, fun a n s t => ⟨fun h => ?_, fun h => ?_⟩⟩
  · obtain ⟨ts, hts⟩ := exists_bytesToTrits b
    cases h.symm.trans hts
  · have hone : tritValue [.pos] = 1 := rfl
    rw [tritValue_append, tritValue_replicate_zero, List.length_replicate, hone, mul_one, zero_add]
    exact two_pow_383_lt.le
  · have habs : |(2 : Int) ^ 383| ≤ (3 ^ 243 - 1) / 2 := by
      rw [abs_of_pos (by positivity)]
      exact two_pow_383_lt_half.le
    exact (tritValue_digits habs).ge
  · rcases absorbWith_err h with herr | herr | herr <;> simp [herr]
  · rcases squeezeWith_err h with herr | herr | herr <;> simp [herr]

end Sys2Proof.Machine
end

section
/-! The commands T2B and B2T where the cells they read hold what they need (41_base_conversion.md R132, R133). -/

namespace Sys2Proof.Machine

theorem exec_t2b (a : Nat) (s : State) : exec (.t2b a) s = t2bWith Config.params a s := rfl

theorem exec_b2t (a : Nat) (s : State) : exec (.b2t a) s = b2tWith Config.params a s := rfl

@[simp] theorem andThen_next (t : State) (next : State → Result) : andThen (.next t) next = next t := rfl

theorem State.setErr_setBuf (s : State) (m : Memory 8) (e : ErrCode) :
    (s.setBuf m).setErr e = { s with buf := m, err := e } := rfl

section
variable {p : Params} {s : State} {a : Nat}

/-- T2B of a chunk that has a block completes and writes its bytes. -/
theorem t2bWith_of_holdsTrits {ts : List Trit} {b : Block} (ha : a + 243 ≤ p.sizeT) (hlen : ts.length = 243)
    (htrits : HoldsTrits s.tmem a ts) (hb : tritsToBytes ts = .ok b) :
    t2bWith p a s = .next ((s.setBuf (s.buf.writeCells 0 (blockBytes b))).setErr .ok) := by
  have hread : readTrits s.tmem a 243 = .ok ts := hlen ▸ readTrits_of_holdsTrits _ _ _ htrits
  rcases t2bWith_cases p a s with ⟨hrange, -⟩ | ⟨-, ⟨r, hr, -⟩ | ⟨ts', hts', ⟨e, he, -⟩ | ⟨b', hb', h⟩⟩⟩
  · omega
  · cases hread.symm.trans hr
  · cases hread.symm.trans hts'
    cases hb.symm.trans he
  · cases hread.symm.trans hts'
    cases hb.symm.trans hb'
    exact h

/-- T2B of a chunk that has none ends with the error of the conversion. -/
theorem t2bWith_of_tritsToBytes_error {ts : List Trit} {e : ErrCode} (ha : a + 243 ≤ p.sizeT)
    (hlen : ts.length = 243) (htrits : HoldsTrits s.tmem a ts) (he : tritsToBytes ts = .error e) :
    t2bWith p a s = .next (s.setErr e) := by
  have hread : readTrits s.tmem a 243 = .ok ts := hlen ▸ readTrits_of_holdsTrits _ _ _ htrits
  rcases t2bWith_cases p a s with ⟨hrange, -⟩ | ⟨-, ⟨r, hr, -⟩ | ⟨ts', hts', ⟨e', he', h⟩ | ⟨b, hb, -⟩⟩⟩
  · omega
  · cases hread.symm.trans hr
  · cases hread.symm.trans hts'
    cases he.symm.trans he'
    exact h
  · cases hread.symm.trans hts'
    cases he.symm.trans hb

/-- B2T of 48 written bytes completes and writes the chunk of their block. -/
theorem b2tWith_of_holdsCells {bs : List Byte} {ts : List Trit} (ha : a + 243 ≤ p.sizeT) (hlen : bs.length = 48)
    (hcells : HoldsCells s.buf 0 bs) (hts : bytesToTrits (blockOfBytes bs) = .ok ts) :
    b2tWith p a s = .next ((s.setTmem (writeTrits s.tmem a ts)).setErr .ok) := by
  have hread : s.buf.readCells 0 48 = .ok bs := hlen ▸ readCells_of_holdsCells _ _ _ hcells
  rcases b2tWith_cases p a s with ⟨hrange, -⟩ | ⟨-, ⟨r, hr, -⟩ | ⟨bs', hbs', ⟨e, he, -⟩ | ⟨ts', hts', h⟩⟩⟩
  · omega
  · cases hread.symm.trans hr
  · cases hread.symm.trans hbs'
    cases hts.symm.trans he
  · cases hread.symm.trans hbs'
    cases hts.symm.trans hts'
    exact h

end

theorem blockBytes_getElem? (b : Block) {j : Nat} (hj : j < 48) : (blockBytes b)[j]? = some (blockByte b j) := by
  simp [blockBytes, hj]

/-- Settles O46: a value in the signed range is rendered into BUF, another has no block. -/
theorem t2bConvertsChunk : Obligations.T2bConvertsChunk := by
  intro s a ts ha hlen htrits
  rw [exec_t2b]
  refine ⟨fun ⟨hlo, hhi⟩ => ?_, fun hout => ?_⟩
  · have hdone := t2bWith_of_holdsTrits ha hlen htrits (tritsToBytes_of_fits hlo hhi)
    rw [State.setErr_setBuf] at hdone
    refine ⟨_, hdone, fun j hj => ?_, fun j hj => ?_⟩
    · have hbyte := Memory.read_writeCells_of_getElem? s.buf 0 (blockBytes_getElem? (render (tritValue ts)) hj)
      rw [Nat.zero_add] at hbyte
      exact ⟨_, hbyte, blockByte_render _ j⟩
    · exact Memory.read_writeCells_of_outside _ (by rw [blockBytes_length]; omega)
  · exact t2bWith_of_tritsToBytes_error ha hlen htrits ((tritsToBytes_error_iff _ _).2 ⟨rfl, hout⟩)

/-- The bytes of the block of a list are those of the list. -/
theorem blockByte_blockOfBytes {bs : List Byte} (hlen : bs.length = 48) {j : Nat} (hj : j < 48) :
    blockByte (blockOfBytes bs) j = bs.getD j 0 := by
  have hbyte := blockBytes_getElem? (blockOfBytes bs) hj
  rw [blockBytes_blockOfBytes bs hlen] at hbyte
  rw [List.getD_eq_getElem?_getD, hbyte, Option.getD_some]

/-- The value of 48 bytes, the first most significant and with the sign (20_memory.md R52). -/
theorem blockValue_blockOfBytes {bs : List Byte} (hlen : bs.length = 48) :
    blockValue (blockOfBytes bs) =
      ((List.range 48).map (fun j => ((bs.getD j 0).toNat : Int) * 256 ^ (47 - j))).sum -
        (if (bs.getD 0 0).getLsbD 7 then 2 ^ 384 else 0) := by
  rw [byteChunkIsBigEndian.1, blockByte_blockOfBytes hlen (by decide)]
  have hbytes : ∀ j ∈ List.range 48, ((blockByte (blockOfBytes bs) j).toNat : Int) * 256 ^ (47 - j) =
      ((bs.getD j 0).toNat : Int) * 256 ^ (47 - j) := fun j hj => by
    rw [blockByte_blockOfBytes hlen (List.mem_range.1 hj)]
  rw [List.map_congr_left hbytes]

/-- Settles O47: the trits written are those of the block of BUF, whose value they have. -/
theorem b2tConvertsBuf : Obligations.B2tConvertsBuf := by
  intro s a bs ha hlen hcells
  obtain ⟨ts, hts⟩ := exists_bytesToTrits (blockOfBytes bs)
  obtain ⟨hcount, hval⟩ := bytesToTrits_spec _ ts hts
  rw [exec_b2t]
  exact ⟨writeTrits s.tmem a ts, ts, b2tWith_of_holdsCells ha hlen hcells hts, hcount,
    hval.trans (blockValue_blockOfBytes hlen), holdsTrits_writeTrits _ _ _,
    fun c hc => read_writeTrits_of_outside _ (by omega)⟩

/-- Writing to a range what it holds changes no cell. -/
theorem Memory.read_writeCells_of_holdsCells {w : Nat} {m : Memory w} {a : Nat} {vs : List (BitVec w)}
    (h : HoldsCells m a vs) (c : Nat) : (m.writeCells a vs).read c = m.read c := by
  by_cases hc : a ≤ c ∧ c < a + vs.length
  · obtain ⟨i, rfl⟩ := Nat.exists_eq_add_of_le hc.1
    have hi : i < vs.length := by omega
    rw [holdsCells_writeCells m a vs i hi, h i hi]
  · exact Memory.read_writeCells_of_outside m (by omega)

/-- Settles O48: T2B reads the trits B2T has written, and their block is that of BUF. -/
theorem b2tThenT2bRestoresBuf : Obligations.B2tThenT2bRestoresBuf := by
  intro s a bs ha hlen hcells
  obtain ⟨ts, hts⟩ := exists_bytesToTrits (blockOfBytes bs)
  obtain ⟨hcount, hblock⟩ := (bytesToTrits_ok_iff_tritsToBytes _ ts).1 hts
  have hback := t2bWith_of_holdsTrits (s := (s.setTmem (writeTrits s.tmem a ts)).setErr .ok) ha hcount
    (holdsTrits_writeTrits s.tmem a ts) hblock
  rw [blockBytes_blockOfBytes bs hlen] at hback
  refine ⟨writeTrits s.tmem a ts, s.buf.writeCells 0 bs, ?_, Memory.read_writeCells_of_holdsCells hcells⟩
  rw [exec_b2t, b2tWith_of_holdsCells ha hlen hcells hts, andThen_next, exec_t2b, hback]
  rfl

end Sys2Proof.Machine
end

section
/-! ABSORB over whole chunks (42_sponge.md R152 to R157, R164): the blocks it feeds, and the two calls one call is split
into. -/

namespace Sys2Proof.Machine

theorem commandWith_absorb (p : Params) (a : Nat) (n : Int) : commandWith p (.absorb a n) = absorbWith p a n := rfl

/-- The blocks of the first `k` chunks of `ts`, in order: the value of a masked chunk is that of its first 242 trits
(42_sponge.md R154). -/
def absorbedBlocks (k : Nat) (ts : List Trit) : List Block :=
  (List.range k).map fun j => render (tritValue ((ts.drop (243 * j)).take 242))

/-- A top trit 0 adds nothing to the value. -/
theorem tritValue_maskTop {chunk : List Trit} (hlen : chunk.length = 243) :
    tritValue (maskTop chunk) = tritValue (chunk.take 242) := by
  have hmask : maskTop chunk = chunk.take 242 ++ [.zero] := by
    rw [maskTop, List.set_eq_take_append_cons_drop, if_pos (by omega), List.drop_of_length_le (by omega)]
  rw [hmask, tritValue_append]
  simp [Trit.toInt]

/-- ABSORB's loop over written chunks always ends well and appends their blocks. -/
theorem absorbLoop_eq {k : Nat} {ts : List Trit} (c : List Block) (hlen : 243 * k ≤ ts.length) :
    absorbLoop k ts c = .ok (c ++ absorbedBlocks k ts) := by
  obtain ⟨c', hc'⟩ := exists_absorbLoop k ts c hlen
  have hblocks : ∀ j ∈ List.range k, render (tritValue (maskTop ((ts.drop (243 * j)).take 243))) =
      render (tritValue ((ts.drop (243 * j)).take 242)) := fun j hj => by
    have hj : j < k := List.mem_range.1 hj
    have hchunk : ((ts.drop (243 * j)).take 243).length = 243 :=
      List.length_take_of_le (by rw [List.length_drop]; omega)
    rw [tritValue_maskTop hchunk, List.take_take]
    rfl
  rw [hc', absorbLoop_spec k ts c c' hc', List.map_congr_left hblocks, absorbedBlocks]

/-- The blocks of `m` chunks, then those of the next `n`. -/
theorem absorbedBlocks_add {m n : Nat} {ts us : List Trit} (hts : ts.length = 243 * m) (hus : us.length = 243 * n) :
    absorbedBlocks (m + n) (ts ++ us) = absorbedBlocks m ts ++ absorbedBlocks n us := by
  have hloop := absorbLoop_add m n ts us [] hts
  rw [absorbLoop_eq [] (by rw [List.length_append]; omega), absorbLoop_eq [] hts.ge, Except.bind,
    absorbLoop_eq _ hus.ge] at hloop
  simpa using hloop

/-- The blocks do not depend on the top trits. -/
theorem absorbedBlocks_congr (k : Nat) {ts ts' : List Trit} (h : ∀ i, i % 243 ≠ 242 → ts[i]? = ts'[i]?) :
    absorbedBlocks k ts = absorbedBlocks k ts' := by
  refine List.map_congr_left fun j _ => congrArg (render <| tritValue ·) (List.ext_getElem? fun i => ?_)
  by_cases hi : i < 242
  · rw [List.getElem?_take_of_lt hi, List.getElem?_take_of_lt hi, List.getElem?_drop, List.getElem?_drop]
    exact h _ (by omega)
  · rw [List.getElem?_eq_none (by simp; omega), List.getElem?_eq_none (by simp; omega)]

/-- The state an ABSORB of `blocks` leaves. -/
def State.absorbed (s : State) (blocks : List Block) : State :=
  ((s.setCtx (s.ctx ++ blocks)).setPhase .absorbing).setErr .ok

section
variable {p : Params} {s : State} {a : Nat}

theorem absorbWith_of_bad_length {n : Int} (hlength : lengthFails (.absorb a n)) :
    absorbWith p a n s = .next (s.setErr .invalidInput) := by
  simp only [lengthFails] at hlength
  rcases absorbWith_cases p a n s with ⟨-, h⟩ | ⟨hpos, hmod, -⟩
  · exact h
  · omega

theorem absorbWith_of_bad_range {n : Int} (hlength : ¬lengthFails (.absorb a n))
    (hrange : rangeFails p (.absorb a n)) : absorbWith p a n s = .next (s.setErr .badRange) := by
  simp only [rangeFails] at hrange
  rcases absorbWith_cases p a n s with ⟨hfails, -⟩ | ⟨hpos, -, ⟨-, h⟩ | ⟨hfits, -⟩⟩
  · exact absurd hfails hlength
  · exact h
  · omega

theorem absorbWith_of_squeezing {n : Int} (hlength : ¬lengthFails (.absorb a n))
    (hrange : ¬rangeFails p (.absorb a n)) (hphase : s.phase = .squeezing) :
    absorbWith p a n s = .refused .absorbAfterSqueeze := by
  simp only [rangeFails] at hrange
  rcases absorbWith_cases p a n s with ⟨hfails, -⟩ | ⟨hpos, -, ⟨hpast, -⟩ | ⟨-, ⟨-, h⟩ | ⟨hother, -⟩⟩⟩
  · exact absurd hfails hlength
  · omega
  · exact h
  · exact absurd hphase hother

/-- Settles O33: the length is checked first. -/
theorem absorbRejectsBadLength : Obligations.AbsorbRejectsBadLength := fun _ _ _ hlength =>
  absorbWith_of_bad_length hlength

/-- Settles O34: the phase is checked after length and range. -/
theorem absorbAfterSqueezeRefused : Obligations.AbsorbAfterSqueezeRefused := fun _ _ _ hphase =>
  ⟨fun hlength hrange => absorbWith_of_squeezing hlength hrange hphase,
    fun hlength => absorbWith_of_bad_length hlength,
    fun hlength hrange => absorbWith_of_bad_range hlength hrange⟩

/-- A positive number of chunks passes the length check. -/
theorem not_lengthFails_chunks {k : Nat} (hk : 0 < k) : ¬lengthFails (.absorb a (243 * k)) := by
  simp only [lengthFails]
  omega

theorem not_rangeFails_chunks {k : Nat} (ha : a + 243 * k ≤ p.sizeT) : ¬rangeFails p (.absorb a (243 * k)) := by
  simp only [rangeFails]
  omega

/-- ABSORB of chunks that can be read feeds their blocks. -/
theorem absorbWith_of_readTrits {k : Nat} {ts : List Trit} (hk : 0 < k) (ha : a + 243 * k ≤ p.sizeT)
    (hphase : s.phase ≠ .squeezing) (hread : readTrits s.tmem a (243 * k) = .ok ts) :
    absorbWith p a (243 * k) s = .next (s.absorbed (absorbedBlocks k ts)) := by
  have hlen := ((readTrits_ok_iff _ _ _ _).1 hread).1
  have hcount : (243 * (k : Int)).toNat = 243 * k := by omega
  have hloop := absorbLoop_eq s.ctx hlen.ge
  have hcases := absorbWith_cases p a (243 * k) s
  rw [hcount, Nat.mul_div_cancel_left k (by decide)] at hcases
  rcases hcases with ⟨hfails, -⟩ | ⟨-, -, ⟨hpast, -⟩ | ⟨-, ⟨hother, -⟩ | ⟨-, ⟨r, hr, -⟩ |
    ⟨ts', hts', ⟨e, he, -⟩ | ⟨c, hc, h⟩⟩⟩⟩⟩
  · exact absurd hfails (not_lengthFails_chunks (a := a) hk)
  · omega
  · exact absurd hother hphase
  · cases hread.symm.trans hr
  · cases hread.symm.trans hts'
    cases hloop.symm.trans he
  · cases hread.symm.trans hts'
    cases hloop.symm.trans hc
    exact h

/-- ABSORB of chunks of which some cell cannot be read is refused for it. -/
theorem absorbWith_of_readTrits_error {k : Nat} {r : Refusal} (hk : 0 < k) (ha : a + 243 * k ≤ p.sizeT)
    (hphase : s.phase ≠ .squeezing) (hread : readTrits s.tmem a (243 * k) = .error r) :
    absorbWith p a (243 * k) s = .refused r :=
  absorbWith_refused (not_lengthFails_chunks hk) (not_rangeFails_chunks ha) hphase
    (by rwa [show (243 * (k : Int)).toNat = 243 * k by omega])

theorem absorbWith_of_holdsTrits {k : Nat} {ts : List Trit} (hk : 0 < k) (ha : a + 243 * k ≤ p.sizeT)
    (hlen : ts.length = 243 * k) (hphase : s.phase ≠ .squeezing) (htrits : HoldsTrits s.tmem a ts) :
    absorbWith p a (243 * k) s = .next (s.absorbed (absorbedBlocks k ts)) :=
  absorbWith_of_readTrits hk ha hphase (hlen ▸ readTrits_of_holdsTrits _ _ _ htrits)

end

/-- Settles O30: the loop over chunks appends their blocks, in order. -/
theorem absorbFeedsChunksInOrder : Obligations.AbsorbFeedsChunksInOrder := fun _ _ _ _ hk hlen ha hphase htrits =>
  absorbWith_of_holdsTrits hk ha hlen hphase htrits

/-- Settles O31: inputs that differ in top trits alone have the same blocks. -/
theorem absorbIgnoresTopTrits : Obligations.AbsorbIgnoresTopTrits := by
  intro s s' a k ts ts' hk ha hlen hlen' hagree htrits htrits' hphase hphase' hctx
  refine ⟨s.ctx ++ absorbedBlocks k ts, absorbWith_of_holdsTrits hk ha hlen hphase htrits, ?_⟩
  rw [hctx, absorbedBlocks_congr k hagree]
  exact absorbWith_of_holdsTrits hk ha hlen' hphase' htrits'

/-- Settles O32: the cells read are those of the first call and then those of the second, and so are the blocks fed; the
first unreadable cell is in the one range or in the other. -/
theorem absorbSplits : Obligations.AbsorbSplits := by
  intro p s a m n hm hn ha
  rw [commandWith_absorb, commandWith_absorb, commandWith_absorb]
  by_cases hphase : s.phase = .squeezing
  · rw [absorbWith_of_squeezing (not_lengthFails_chunks (by omega)) (not_rangeFails_chunks ha) hphase,
      absorbWith_of_squeezing (not_lengthFails_chunks hm) (not_rangeFails_chunks (by omega)) hphase]
    rfl
  have hread := readTrits_add s.tmem a (243 * m) (243 * n)
  rw [← Nat.mul_add] at hread
  cases hfirst : readTrits s.tmem a (243 * m) with
  | error r =>
    rw [hfirst] at hread
    rw [absorbWith_of_readTrits_error (by omega) ha hphase hread,
      absorbWith_of_readTrits_error hm (by omega) hphase hfirst]
    rfl
  | ok ts =>
    have hts := ((readTrits_ok_iff _ _ _ _).1 hfirst).1
    have hphase' : (s.absorbed (absorbedBlocks m ts)).phase ≠ .squeezing := by simp [State.absorbed]
    rw [hfirst] at hread
    rw [absorbWith_of_readTrits hm (by omega) hphase hfirst, andThen_next]
    cases hsecond : readTrits s.tmem (a + 243 * m) (243 * n) with
    | error r =>
      rw [hsecond] at hread
      rw [absorbWith_of_readTrits_error (by omega) ha hphase hread,
        absorbWith_of_readTrits_error hn (by omega) hphase' hsecond]
    | ok us =>
      have hus := ((readTrits_ok_iff _ _ _ _).1 hsecond).1
      rw [hsecond] at hread
      rw [absorbWith_of_readTrits (by omega) ha hphase hread, absorbedBlocks_add hts hus,
        absorbWith_of_readTrits hn (by omega) hphase' hsecond]
      simp only [State.absorbed, State.setErr_ctx, State.setPhase_ctx, State.setCtx_ctx, List.append_assoc]
      rfl

end Sys2Proof.Machine
end

section
/-! SQUEEZE over whole chunks (42_sponge.md R158 to R163, R165, R168): the digests it takes, the chunks it writes, and the
two calls one call is split into. -/

namespace Sys2Proof.Machine

theorem commandWith_squeeze (p : Params) (a : Nat) (n : Int) : commandWith p (.squeeze a n) = squeezeWith p a n := rfl

/-- The chunk of a block; every block has one (41_base_conversion.md R127 (a)). -/
def blockTrits (b : Block) : List Trit := (digits 243 (blockValue b)).1

theorem bytesToTrits_eq (b : Block) : bytesToTrits b = .ok (blockTrits b) := by
  obtain ⟨ts, hts⟩ := exists_bytesToTrits b
  obtain ⟨hlen, hval⟩ := bytesToTrits_spec b ts hts
  rw [hts, blockTrits, ← hval, digits_tritValue hlen]

@[simp] theorem blockTrits_length (b : Block) : (blockTrits b).length = 243 := (digits_sum 243 (blockValue b)).1

theorem tritValue_blockTrits (b : Block) : tritValue (blockTrits b) = blockValue b :=
  (bytesToTrits_spec b _ (bytesToTrits_eq b)).2

/-- One chunk of SQUEEZE: the digest written by the policy, its complement the new context. -/
theorem squeezeLoop_succ (p : Params) (k a : Nat) (c : List Block) (m : Memory 2) :
    squeezeLoop p (k + 1) a c m =
      squeezeLoop p k (a + 243) [~~~(p.hash c)] (writeTrits m a (topPolicy p (blockTrits (p.hash c)))) := by
  rw [squeezeLoop, piDigest, bytesToTrits_eq]
  rfl

/-- The digests after a reseed are those after the first. -/
theorem nthDigest_reseed (p : Params) (c : List Block) (j : Nat) :
    nthDigest p [~~~(p.hash c)] j = nthDigest p c (j + 1) := by
  induction j with
  | zero => rfl
  | succ j ih =>
    rw [nthDigest, ih]
    rfl

/-- The digests depend on the primitive alone. -/
theorem nthDigest_congr {p p' : Params} (h : p'.hash = p.hash) (c : List Block) (j : Nat) :
    nthDigest p' c j = nthDigest p c j := by
  induction j with
  | zero => rw [nthDigest, nthDigest, h]
  | succ j ih => rw [nthDigest, nthDigest, h, ih]

/-- The chunk SQUEEZE writes for the digest counted `j`. -/
def outputChunk (p : Params) (c : List Block) (j : Nat) : List Trit := topPolicy p (blockTrits (nthDigest p c j))

@[simp] theorem outputChunk_length (p : Params) (c : List Block) (j : Nat) : (outputChunk p c j).length = 243 := by
  simp [outputChunk]

/-- TMEM `m'` is `m` with the output chunks of the context `c` in the `k` chunks of cells from `a` on. -/
structure SqueezedTmem (p : Params) (c : List Block) (a k : Nat) (m m' : Memory 2) : Prop where
  inside : ∀ j < k, ∀ i < 243, m'.read (a + 243 * j + i) = ((outputChunk p c j)[i]?).map Trit.pattern
  outside : ∀ x, x < a ∨ a + 243 * k ≤ x → m'.read x = m.read x

theorem SqueezedTmem.zero (p : Params) (c : List Block) (a : Nat) (m : Memory 2) : SqueezedTmem p c a 0 m m :=
  ⟨fun _ hj => absurd hj (Nat.not_lt_zero _), fun _ _ => rfl⟩

/-- The first chunk is written, then those of the reseeded context after it, which leave the first alone. -/
theorem SqueezedTmem.succ {p : Params} {c : List Block} {a k : Nat} {m m' : Memory 2}
    (h : SqueezedTmem p [~~~(p.hash c)] (a + 243) k (writeTrits m a (outputChunk p c 0)) m') :
    SqueezedTmem p c a (k + 1) m m' where
  inside j hj i hi := by
    cases j with
    | zero =>
      rw [Nat.mul_zero, Nat.add_zero, h.outside _ (by omega), read_writeTrits, outputChunk_length, if_pos (by omega),
        Nat.add_sub_cancel_left]
    | succ j =>
      have hcell := h.inside j (by omega) i hi
      rwa [outputChunk, nthDigest_reseed, Nat.add_assoc a, Nat.add_comm 243, ← Nat.mul_succ] at hcell
  outside x hx := by
    have hlen := outputChunk_length p c 0
    rw [h.outside x (by omega), read_writeTrits_of_outside m (by omega)]

/-- The context after `k` chunks: a chunk leaves the complement of its digest. -/
def contextAfter (p : Params) (c : List Block) : Nat → List Block
  | 0 => c
  | k + 1 => [~~~(nthDigest p c k)]

theorem contextAfter_reseed (p : Params) (c : List Block) (k : Nat) :
    contextAfter p [~~~(p.hash c)] k = contextAfter p c (k + 1) := by
  cases k with
  | zero => rfl
  | succ k => rw [contextAfter, contextAfter, nthDigest_reseed]

theorem contextAfter_of_pos (p : Params) (c : List Block) {k : Nat} (hk : 0 < k) :
    contextAfter p c k = [~~~(nthDigest p c (k - 1))] := by
  obtain ⟨k, rfl⟩ := Nat.exists_eq_add_one.2 hk
  rfl

/-- SQUEEZE's loop leaves the context after its chunks, and in its cells the chunks of its digests. -/
theorem squeezeLoop_eq (p : Params) (k a : Nat) (c : List Block) (m : Memory 2) :
    ∃ m', squeezeLoop p k a c m = .ok (contextAfter p c k, m') ∧ SqueezedTmem p c a k m m' := by
  induction k generalizing a c m with
  | zero => exact ⟨m, rfl, .zero p c a m⟩
  | succ k ih =>
    obtain ⟨m', hloop, hcells⟩ := ih (a + 243) [~~~(p.hash c)] (writeTrits m a (outputChunk p c 0))
    exact ⟨m', by rw [← contextAfter_reseed, ← hloop, squeezeLoop_succ]; rfl, hcells.succ⟩

/-- The state a SQUEEZE leaves. -/
def State.squeezed (s : State) (c : List Block) (m : Memory 2) : State :=
  (((s.setCtx c).setTmem m).setPhase .squeezing).setErr .ok

section
variable {p : Params} {s : State} {a : Nat}

theorem squeezeWith_of_bad_length {n : Int} (hlength : lengthFails (.squeeze a n)) :
    squeezeWith p a n s = .next (s.setErr .invalidInput) := by
  simp only [lengthFails] at hlength
  rcases squeezeWith_cases p a n s with ⟨-, h⟩ | ⟨hpos, hmod, -⟩
  · exact h
  · omega

/-- SQUEEZE leaves the context and the memory of its loop. -/
theorem squeezeWith_of_squeezeLoop {k : Nat} {c : List Block} {m : Memory 2} (hk : 0 < k)
    (ha : a + 243 * k ≤ p.sizeT) (hloop : squeezeLoop p k a s.ctx s.tmem = .ok (c, m)) :
    squeezeWith p a (243 * k) s = .next (s.squeezed c m) := by
  have hcount : (243 * (k : Int)).toNat = 243 * k := by omega
  have hcases := squeezeWith_cases p a (243 * k) s
  rw [hcount, Nat.mul_div_cancel_left k (by decide)] at hcases
  rcases hcases with ⟨hfails, -⟩ | ⟨-, -, ⟨hpast, -⟩ | ⟨-, ⟨e, he, -⟩ | ⟨c', m', hloop', h⟩⟩⟩
  · omega
  · omega
  · cases hloop.symm.trans he
  · cases hloop.symm.trans hloop'
    exact h

/-- SQUEEZE of chunks inside TMEM completes in every phase. -/
theorem squeezeWith_chunks {k : Nat} (s : State) (hk : 0 < k) (ha : a + 243 * k ≤ p.sizeT) :
    ∃ m, squeezeWith p a (243 * k) s = .next (s.squeezed [~~~(nthDigest p s.ctx (k - 1))] m) ∧
      SqueezedTmem p s.ctx a k s.tmem m := by
  obtain ⟨m, hloop, hcells⟩ := squeezeLoop_eq p k a s.ctx s.tmem
  rw [contextAfter_of_pos p s.ctx hk] at hloop
  exact ⟨m, squeezeWith_of_squeezeLoop hk ha hloop, hcells⟩

/-- The case of one chunk. -/
theorem squeezeWith_one_chunk (s : State) (ha : a + 243 ≤ p.sizeT) :
    ∃ m, squeezeWith p a 243 s = .next (s.squeezed [~~~(p.hash s.ctx)] m) ∧ SqueezedTmem p s.ctx a 1 s.tmem m :=
  squeezeWith_chunks (k := 1) s Nat.one_pos ha

end

/-- Settles O35: the length is checked first. -/
theorem squeezeRejectsBadLength : Obligations.SqueezeRejectsBadLength := fun _ _ _ =>
  ⟨fun hn => squeezeWith_of_bad_length (.inl hn),
    fun _ hmod => ⟨.invalidInput, by decide, squeezeWith_of_bad_length (.inr hmod)⟩⟩

/-- Settles O38: the chunks of the first call, then those of the second from the context and the memory it leaves. -/
theorem squeezeSplits : Obligations.SqueezeSplits := by
  intro p s a m n hm hn ha
  obtain ⟨⟨c₁, m₁⟩, hfirst⟩ := exists_squeezeLoop p m a s.ctx s.tmem
  obtain ⟨⟨c₂, m₂⟩, hsecond⟩ := exists_squeezeLoop p n (a + 243 * m) c₁ m₁
  have hwhole : squeezeLoop p (m + n) a s.ctx s.tmem = .ok (c₂, m₂) := by
    rw [squeezeLoop_add, hfirst, Except.bind, hsecond]
  rw [commandWith_squeeze, commandWith_squeeze, commandWith_squeeze,
    squeezeWith_of_squeezeLoop (by omega) ha hwhole, squeezeWith_of_squeezeLoop hm (by omega) hfirst, andThen_next,
    squeezeWith_of_squeezeLoop (s := s.squeezed c₁ m₁) hn (by omega) hsecond]
  rfl

/-- The policy changes no trit below the top. -/
theorem topPolicy_getElem?_of_ne (p : Params) (ts : List Trit) {i : Nat} (hi : i ≠ 242) :
    (topPolicy p ts)[i]? = ts[i]? := by
  unfold topPolicy
  split
  · rfl
  · exact List.getElem?_set_ne hi.symm

theorem topPolicy_of_asConverted {p : Params} (h : p.squeezeTop = .asConverted) (ts : List Trit) :
    topPolicy p ts = ts := by
  simp only [topPolicy, h]

theorem topPolicy_top_of_forcedZero {p : Params} (h : p.squeezeTop = .forcedZero) {ts : List Trit}
    (hlen : ts.length = 243) : (topPolicy p ts)[242]? = some .zero := by
  simp only [topPolicy, h]
  exact maskTop_top ts hlen

theorem topPolicy_getElem? (p : Params) {ts : List Trit} (hlen : ts.length = 243) (i : Nat) :
    (topPolicy p ts)[i]? = if i = 242 ∧ p.squeezeTop = .forcedZero then some .zero else ts[i]? := by
  split
  next h => rw [h.1, topPolicy_top_of_forcedZero h.2 hlen]
  next h =>
    by_cases hi : i = 242
    · cases hp : p.squeezeTop with
      | asConverted => rw [topPolicy_of_asConverted hp]
      | forcedZero => exact absurd ⟨hi, hp⟩ h
    · exact topPolicy_getElem?_of_ne p ts hi

/-- Settles O36: each chunk of cells holds the trits of its digest, written by the policy. -/
theorem squeezeWritesDigestsInOrder : Obligations.SqueezeWritesDigestsInOrder := by
  intro s a k hk ha
  obtain ⟨m, hdone, hcells⟩ := squeezeWith_chunks s hk ha
  refine ⟨m, hdone, fun j hj => ⟨_, bytesToTrits_eq _, fun i hi => ?_⟩, hcells.outside⟩
  rw [hcells.inside j hj i hi, outputChunk, topPolicy_getElem? _ (blockTrits_length _)]
  split <;> rfl

theorem blockByte_invertBlock (d : Block) {j : Nat} (hj : j < 48) :
    blockByte (invertBlock d) j = ~~~(blockByte d j) := by
  refine BitVec.eq_of_getLsbD_eq fun i hi => ?_
  have hbit : 8 * (47 - j) + i < 384 := by omega
  simp [blockByte, invertBlock, hi, hbit]

/-- The complement is the negative less one (42_sponge.md R161), which is in the signed range as well. -/
theorem blockValue_invertBlock (d : Block) : blockValue (invertBlock d) = -blockValue d - 1 := by
  obtain ⟨hlo, hhi⟩ := blockValue_bounds d
  have hrender : render (-blockValue d - 1) = invertBlock d := by
    rw [render, sub_eq_add_neg, BitVec.ofInt_add, ← render, render_neg_blockValue, invertBlock, BitVec.not_eq_neg_add,
      BitVec.sub_eq_add_neg, BitVec.ofInt_neg, BitVec.ofInt_ofNat]
  rw [← hrender]
  exact blockValue_render (by omega) (by omega)

/-- Settles O37: the loop reseeds with the complement, and one chunk reseeds once. -/
theorem reseedComplementsDigest : Obligations.ReseedComplementsDigest := by
  refine ⟨fun d j hj => blockByte_invertBlock d hj, blockValue_invertBlock, fun p a s ha => ?_⟩
  obtain ⟨m, hdone, -⟩ := squeezeWith_one_chunk s ha
  exact ⟨_, hdone, rfl⟩

/-- The top trit is not 0 exactly where the value is beyond what the trits below it can hold. -/
theorem top_ne_zero_iff {n : Nat} {ts : List Trit} (hlen : ts.length = n + 1) :
    ts[n]? ≠ some .zero ↔ (3 ^ n - 1) / 2 < |tritValue ts| := by
  have htop : ts[n]? = some ts[n] := List.getElem?_eq_getElem (by omega)
  have hbound := two_mul_tritValue_sub_top_bounds hlen htop
  have hpos : (0 : Int) < 3 ^ n := by positivity
  rw [← not_le, abs_le_half_iff, htop]
  generalize (3 : Int) ^ n = x at *
  cases h : ts[n] with
  | neg | zero | pos =>
    simp only [h, Trit.toInt] at hbound
    simp only [ne_eq, Option.some.injEq, reduceCtorEq, not_true_eq_false, not_false_eq_true, false_iff, true_iff]
    omega

/-- The top trit of a digest's chunk. -/
theorem blockTrits_top_ne_zero_iff (b : Block) :
    (blockTrits b)[242]? ≠ some .zero ↔ (3 ^ 242 - 1) / 2 < |blockValue b| :=
  tritValue_blockTrits b ▸ top_ne_zero_iff (n := 242) (blockTrits_length b)

/-- A cell holds the pattern of a trit exactly where it holds the trit. -/
theorem map_pattern_eq_some_iff (o : Option Trit) (t : Trit) : o.map Trit.pattern = some t.pattern ↔ o = some t :=
  (Option.map_injective Trit.pattern_injective).eq_iff (b := some t)

/-- An offset into `k` chunks is one into one of them. -/
theorem exists_chunk_offset {k y : Nat} (hy : y < 243 * k) : ∃ j < k, ∃ i < 243, y = 243 * j + i :=
  ⟨y / 243, by omega, y % 243, by omega, by omega⟩

/-- Two machines with one primitive leave the same but in the top cells of the chunks. -/
theorem SqueezedTmem.read_eq_of_hash_eq {p p' : Params} {c : List Block} {a k x : Nat} {m m₁ m₂ : Memory 2}
    (h : SqueezedTmem p c a k m m₁) (h' : SqueezedTmem p' c a k m m₂) (hhash : p'.hash = p.hash)
    (hx : ∀ j, j < k → x ≠ a + 243 * j + 242) : m₂.read x = m₁.read x := by
  by_cases hin : x < a ∨ a + 243 * k ≤ x
  · rw [h.outside x hin, h'.outside x hin]
  · obtain ⟨y, rfl⟩ := Nat.exists_eq_add_of_le (show a ≤ x by omega)
    obtain ⟨j, hj, i, hi, rfl⟩ := exists_chunk_offset (show y < 243 * k by omega)
    have htop : i ≠ 242 := fun hi => hx j hj (by omega)
    rw [← Nat.add_assoc, h.inside j hj i hi, h'.inside j hj i hi, outputChunk, outputChunk,
      topPolicy_getElem?_of_ne p _ htop, topPolicy_getElem?_of_ne p' _ htop, nthDigest_congr hhash]

/-- Settles O39: the two machines take the same digests, and the policy decides the top trit of each chunk alone. -/
theorem topPolicyDecidesOnlyTopTrits : Obligations.TopPolicyDecidesOnlyTopTrits := by
  refine ⟨fun p p' s a k hhash hsize hconverted hforced hk ha => ?_, fun b ts hts => ?_⟩
  · obtain ⟨m, hdone, hcells⟩ := squeezeWith_chunks s hk ha
    obtain ⟨m', hdone', hcells'⟩ := squeezeWith_chunks (p := p') s hk (hsize ▸ ha)
    rw [nthDigest_congr hhash] at hdone'
    refine ⟨m, m', _, hdone, hdone', fun x hx => hcells.read_eq_of_hash_eq hcells' hhash hx, fun j hj => ⟨?_, ?_⟩⟩
    · rw [hcells'.inside j hj 242 (by decide), outputChunk, topPolicy_top_of_forcedZero hforced (blockTrits_length _)]
      rfl
    · rw [hcells.inside j hj 242 (by decide), outputChunk, topPolicy_of_asConverted hconverted,
        ← blockTrits_top_ne_zero_iff]
      exact not_congr (map_pattern_eq_some_iff _ .zero)
  · rw [← Except.ok.inj ((bytesToTrits_eq b).symm.trans hts)]
    exact blockTrits_top_ne_zero_iff b

end Sys2Proof.Machine
end

section
/-! NEW, ABSORB and SQUEEZE in sequence (42_sponge.md R165, R166). -/

namespace Sys2Proof.Machine

/-- The state NEW leaves: a fresh engine, all else as it was (10_state.md R39). -/
def State.renewed (s : State) : State := ((s.setCtx []).setPhase .fresh).setErr .ok

theorem exec_new_eq_renewed (s : State) : exec .new s = .next s.renewed := exec_new s

/-- Settles O40: NEW leaves the empty context, and the policy leaves the trits below the top as converted. -/
theorem freshSqueezeUsesEmptyContext : Obligations.FreshSqueezeUsesEmptyContext := by
  intro s a ha
  rw [exec_new_eq_renewed, andThen_next]
  obtain ⟨m, hdone, hcells⟩ := squeezeWith_one_chunk (p := Config.params) s.renewed ha
  refine ⟨m, _, bytesToTrits_eq _, hdone, fun i hi => ?_⟩
  have hcell := hcells.inside 0 Nat.one_pos i (by omega)
  rwa [Nat.mul_zero, Nat.add_zero, outputChunk, topPolicy_getElem?_of_ne _ _ (by omega)] at hcell

/-- A hash from a fresh engine takes its digests from the blocks of the input. -/
theorem hash_completes {a o k l : Nat} {ts : List Trit} (s : State) (hk : 0 < k) (hl : 0 < l)
    (ha : a + 243 * k ≤ Config.params.sizeT) (ho : o + 243 * l ≤ Config.params.sizeT)
    (hlen : ts.length = 243 * k) (htrits : HoldsTrits s.tmem a ts) :
    ∃ t, andThen (andThen (exec .new s) (exec (.absorb a (243 * k)))) (exec (.squeeze o (243 * l))) = .next t ∧
      t.ctx = [~~~(nthDigest Config.params (absorbedBlocks k ts) (l - 1))] ∧ t.phase = .squeezing ∧ t.err = .ok ∧
      SqueezedTmem Config.params (absorbedBlocks k ts) o l s.tmem t.tmem := by
  have habsorb : exec (.absorb a (243 * k)) s.renewed = .next (s.renewed.absorbed (absorbedBlocks k ts)) :=
    absorbWith_of_holdsTrits hk ha hlen (by simp [State.renewed]) htrits
  obtain ⟨m, hsqueeze, hcells⟩ := squeezeWith_chunks (s.renewed.absorbed (absorbedBlocks k ts)) hl ho
  rw [exec_new_eq_renewed, andThen_next, habsorb, andThen_next]
  exact ⟨_, hsqueeze, rfl, rfl, rfl, hcells⟩

/-- Where the chunks of one context are written, they read the same. -/
theorem SqueezedTmem.read_eq_read {p : Params} {c : List Block} {a a' k y : Nat} {m₁ m₂ n₁ n₂ : Memory 2}
    (h : SqueezedTmem p c a k m₁ m₂) (h' : SqueezedTmem p c a' k n₁ n₂) (hy : y < 243 * k) :
    m₂.read (a + y) = n₂.read (a' + y) := by
  obtain ⟨j, hj, i, hi, rfl⟩ := exists_chunk_offset hy
  rw [← Nat.add_assoc, ← Nat.add_assoc, h.inside j hj i hi, h'.inside j hj i hi]

/-- Settles O41: the two inputs have the same blocks, and all that is compared comes from the blocks. -/
theorem hashIsDeterministic : Obligations.HashIsDeterministic := by
  intro s s' a a' o o' k l ts ts' hk hl ha ha' ho ho' hlen hlen' hagree htrits htrits'
  obtain ⟨t, hrun, hctx, hphase, herr, hcells⟩ := hash_completes s hk hl ha ho hlen htrits
  obtain ⟨t', hrun', hctx', hphase', herr', hcells'⟩ := hash_completes s' hk hl ha' ho' hlen' htrits'
  rw [← absorbedBlocks_congr k hagree] at hctx' hcells'
  exact ⟨t, t', hrun, hrun', hctx.trans hctx'.symm, hphase.trans hphase'.symm, herr.trans herr'.symm,
    fun y hy => hcells.read_eq_read hcells' hy⟩

end Sys2Proof.Machine
end

section
/-! How a command can end, in the order its checks are made (60_exceptions.md R217, R218): what it raises, and for what
cause, and what it can be refused for. -/

namespace Sys2Proof.Machine

/-- The outcomes of a command: the first check that fails decides, and a command with no failed check completes. -/
inductive CheckedOutcome (p : Params) (s : State) : Instr → Result → Prop
  | invalidInput (i : Instr) (hlength : lengthFails i) (hrow : mayEndWith i .invalidInput = true) :
      CheckedOutcome p s i (.next (s.setErr .invalidInput))
  | invalidLength (a b : Nat) (n : Int) (hlength : lengthFails (.t2y a b n)) :
      CheckedOutcome p s (.t2y a b n) (.next (s.setErr .invalidLength))
  | badRange (i : Instr) (hlength : ¬lengthFails i) (hrange : rangeFails p i) :
      CheckedOutcome p s i (.next (s.setErr .badRange))
  | refused (i : Instr) (r : Refusal) (hlength : ¬lengthFails i) (hrange : ¬rangeFails p i)
      (hrow : mayBeRefusedFor i r = true) : CheckedOutcome p s i (.refused r)
  | invalidSymbol (a b : Nat) (n : Int) (cs : List Byte) (hrange : ¬rangeFails p (.y2t a b n))
      (hread : s.ymem.readCells b n.toNat = .ok cs) (hbad : ∃ c ∈ cs, symToTriple c = none) :
      CheckedOutcome p s (.y2t a b n) (.next (s.setErr .invalidSymbol))
  | overflow (a : Nat) (ts : List Trit) (hrange : ¬rangeFails p (.t2b a))
      (hread : readTrits s.tmem a 243 = .ok ts) (hbad : tritsToBytes ts = .error .overflow) :
      CheckedOutcome p s (.t2b a) (.next (s.setErr .overflow))
  | completed (i : Instr) (t : State) (hlength : ¬lengthFails i) (hrange : ¬rangeFails p i) :
      CheckedOutcome p s i (.next (t.setErr .ok))

/-- A range of trits is refused for one of the two reasons that the rows of commands reading TMEM have. -/
theorem mayBeRefusedFor_of_readTrits_error {i : Instr} {m : Memory 2} {a n : Nat} {r : Refusal}
    (h : readTrits m a n = .error r) (hunwritten : mayBeRefusedFor i .unwrittenCell = true)
    (hnotATrit : mayBeRefusedFor i .notATrit = true) : mayBeRefusedFor i r = true := by
  obtain ⟨-, -, ⟨rfl, -⟩ | ⟨rfl, -⟩⟩ := readTrits_error m a n r h
  · exact hunwritten
  · exact hnotATrit

section
variable (p : Params) (s : State)

/-- ABSORB's loop raises nothing. -/
theorem absorbWith_outcome (a : Nat) (n : Int) : CheckedOutcome p s (.absorb a n) (absorbWith p a n s) := by
  rcases absorbWith_cases p a n s with ⟨hlength, h⟩ | ⟨hpos, hmod, hrest⟩
  · exact h ▸ .invalidInput _ hlength rfl
  have hlength : ¬lengthFails (.absorb a n) := by simp only [lengthFails]; omega
  rcases hrest with ⟨hrange, h⟩ | ⟨hrange, hrest⟩
  · exact h ▸ .badRange _ hlength (by simp only [rangeFails]; omega)
  have hrange : ¬rangeFails p (.absorb a n) := by simp only [rangeFails]; omega
  rcases hrest with ⟨-, h⟩ | ⟨-, ⟨r, hr, h⟩ | ⟨ts, hts, ⟨e, he, -⟩ | ⟨c, -, h⟩⟩⟩
  · exact h ▸ .refused _ _ hlength hrange rfl
  · exact h ▸ .refused _ r hlength hrange (mayBeRefusedFor_of_readTrits_error hr rfl rfl)
  · have hcount := ((readTrits_ok_iff _ _ _ _).1 hts).1
    obtain ⟨c, hc⟩ := exists_absorbLoop (n.toNat / 243) ts s.ctx (by omega)
    cases he.symm.trans hc
  · exact h ▸ .completed _ _ hlength hrange

/-- SQUEEZE reads no cell, and its loop raises nothing. -/
theorem squeezeWith_outcome (a : Nat) (n : Int) : CheckedOutcome p s (.squeeze a n) (squeezeWith p a n s) := by
  rcases squeezeWith_cases p a n s with ⟨hlength, h⟩ | ⟨hpos, hmod, hrest⟩
  · exact h ▸ .invalidInput _ hlength rfl
  have hlength : ¬lengthFails (.squeeze a n) := by simp only [lengthFails]; omega
  rcases hrest with ⟨hrange, h⟩ | ⟨hrange, ⟨e, he, -⟩ | ⟨c, m, -, h⟩⟩
  · exact h ▸ .badRange _ hlength (by simp only [rangeFails]; omega)
  · obtain ⟨r, hr⟩ := exists_squeezeLoop p (n.toNat / 243) a s.ctx s.tmem
    cases he.symm.trans hr
  · exact h ▸ .completed _ _ hlength (by simp only [rangeFails]; omega)

theorem y2tWith_outcome (a b : Nat) (n : Int) : CheckedOutcome p s (.y2t a b n) (y2tWith p a b n s) := by
  have hlength : ¬lengthFails (.y2t a b n) := id
  rcases y2tWith_cases p a b n s with ⟨hrange, h⟩ | ⟨hn, hb, ha, hrest⟩
  · exact h ▸ .badRange _ hlength (by simp only [rangeFails]; omega)
  have hrange : ¬rangeFails p (.y2t a b n) := by simp only [rangeFails]; omega
  rcases hrest with ⟨r, hr, h⟩ | ⟨cs, hcs, ⟨e, he, h⟩ | ⟨ts, -, h⟩⟩
  · obtain ⟨rfl, -⟩ := Memory.readCells_error _ _ _ _ hr
    exact h ▸ .refused _ _ hlength hrange rfl
  · obtain ⟨rfl, hbad⟩ := trytesToTrits_error cs e he
    exact h ▸ .invalidSymbol a b n cs hrange hcs hbad
  · exact h ▸ .completed _ _ hlength hrange

theorem t2yWith_outcome (a b : Nat) (n : Int) : CheckedOutcome p s (.t2y a b n) (t2yWith p a b n s) := by
  rcases t2yWith_cases p a b n s with ⟨hlength, h⟩ | ⟨hmod, hrest⟩
  · exact h ▸ .invalidLength a b n hlength
  have hlength : ¬lengthFails (.t2y a b n) := not_not_intro hmod
  rcases hrest with ⟨hrange, h⟩ | ⟨hn, ha, hb, hrest⟩
  · exact h ▸ .badRange _ hlength (by simp only [rangeFails]; omega)
  have hrange : ¬rangeFails p (.t2y a b n) := by simp only [rangeFails]; omega
  rcases hrest with ⟨r, hr, h⟩ | ⟨ts, -, -, h⟩
  · exact h ▸ .refused _ r hlength hrange (mayBeRefusedFor_of_readTrits_error hr rfl rfl)
  · exact h ▸ .completed _ _ hlength hrange

theorem t2bWith_outcome (a : Nat) : CheckedOutcome p s (.t2b a) (t2bWith p a s) := by
  have hlength : ¬lengthFails (.t2b a) := id
  rcases t2bWith_cases p a s with ⟨hrange, h⟩ | ⟨hrange, hrest⟩
  · exact h ▸ .badRange _ hlength (by simp only [rangeFails]; omega)
  have hrange : ¬rangeFails p (.t2b a) := by simp only [rangeFails]; omega
  rcases hrest with ⟨r, hr, h⟩ | ⟨ts, hts, ⟨e, he, h⟩ | ⟨b, -, h⟩⟩
  · exact h ▸ .refused _ r hlength hrange (mayBeRefusedFor_of_readTrits_error hr rfl rfl)
  · obtain ⟨rfl, -⟩ := (tritsToBytes_error_iff ts e).1 he
    exact h ▸ .overflow a ts hrange hts he
  · exact h ▸ .completed _ _ hlength hrange

/-- Every block has its chunk, so B2T raises no `Overflow`. -/
theorem b2tWith_outcome (a : Nat) : CheckedOutcome p s (.b2t a) (b2tWith p a s) := by
  have hlength : ¬lengthFails (.b2t a) := id
  rcases b2tWith_cases p a s with ⟨hrange, h⟩ | ⟨hrange, hrest⟩
  · exact h ▸ .badRange _ hlength (by simp only [rangeFails]; omega)
  have hrange : ¬rangeFails p (.b2t a) := by simp only [rangeFails]; omega
  rcases hrest with ⟨r, hr, h⟩ | ⟨bs, -, ⟨e, he, -⟩ | ⟨ts, -, h⟩⟩
  · obtain ⟨rfl, -⟩ := Memory.readCells_error _ _ _ _ hr
    exact h ▸ .refused _ _ hlength hrange rfl
  · obtain ⟨ts, hts⟩ := exists_bytesToTrits (blockOfBytes bs)
    cases he.symm.trans hts
  · exact h ▸ .completed _ _ hlength hrange

/-- Every command ends in one of the outcomes. -/
theorem commandWith_outcome (i : Instr) : CheckedOutcome p s i (commandWith p i s) := by
  cases i with
  | new => exact .completed .new ((s.setCtx []).setPhase .fresh) id id
  | absorb a n => exact absorbWith_outcome p s a n
  | squeeze a n => exact squeezeWith_outcome p s a n
  | y2t a b n => exact y2tWith_outcome p s a b n
  | t2y a b n => exact t2yWith_outcome p s a b n
  | t2b a => exact t2bWith_outcome p s a
  | b2t a => exact b2tWith_outcome p s a

end

/-- The same of a command of this machine. -/
theorem exec_outcome (i : Instr) (s : State) : CheckedOutcome Config.params s i (exec i s) :=
  exec_eq_commandWith i s ▸ commandWith_outcome Config.params s i

section
variable {p : Params} {s t : State} {i : Instr} {o : Result}

/-- T2Y of a length that is no multiple of 3 raises `InvalidLength`. -/
theorem CheckedOutcome.eq_invalidLength {a b : Nat} {n : Int} (h : CheckedOutcome p s (.t2y a b n) o)
    (hlength : lengthFails (.t2y a b n)) : o = .next (s.setErr .invalidLength) := by
  cases h with
  | invalidLength => rfl
  | invalidInput _ _ hrow => cases hrow
  | badRange | refused | completed => contradiction

theorem CheckedOutcome.t2y_of_invalidLength (h : CheckedOutcome p s i (.next t)) (herr : t.err = .invalidLength) :
    ∃ a b n, i = .t2y a b n ∧ lengthFails (.t2y a b n) := by
  cases h with
  | invalidLength a b n hlength => exact ⟨a, b, n, rfl, hlength⟩
  | invalidInput | badRange | invalidSymbol | overflow | completed => cases herr

/-- A range that fails after a right length raises `BadRange`. -/
theorem CheckedOutcome.eq_badRange (h : CheckedOutcome p s i o) (hlength : ¬lengthFails i) (hrange : rangeFails p i) :
    o = .next (s.setErr .badRange) := by
  cases h with
  | badRange => rfl
  | invalidInput | invalidLength | refused | invalidSymbol | overflow | completed => contradiction

theorem CheckedOutcome.rangeFails_of_badRange (h : CheckedOutcome p s i (.next t)) (herr : t.err = .badRange) :
    ¬lengthFails i ∧ rangeFails p i := by
  cases h with
  | badRange _ hlength hrange => exact ⟨hlength, hrange⟩
  | invalidInput | invalidLength | invalidSymbol | overflow | completed => cases herr

theorem CheckedOutcome.y2t_of_invalidSymbol (h : CheckedOutcome p s i (.next t)) (herr : t.err = .invalidSymbol) :
    ∃ a b n cs, i = .y2t a b n ∧ s.ymem.readCells b n.toNat = .ok cs ∧ ∃ c ∈ cs, symToTriple c = none := by
  cases h with
  | invalidSymbol a b n cs _ hread hbad => exact ⟨a, b, n, cs, rfl, hread, hbad⟩
  | invalidInput | invalidLength | badRange | overflow | completed => cases herr

/-- An error writes its code to `ERR` and nothing else. -/
theorem CheckedOutcome.eq_setErr (h : CheckedOutcome p s i (.next t)) (herr : t.err ≠ .ok) : t = s.setErr t.err := by
  cases h with
  | invalidInput | invalidLength | badRange | invalidSymbol | overflow => rfl
  | completed => exact absurd rfl herr

/-- Only NEW addresses no range and so has no `BadRange` in its row. -/
theorem mayEndWith_badRange (h : rangeFails p i) : mayEndWith i .badRange = true := by
  cases i with
  | new => exact h.elim
  | absorb | squeeze | y2t | t2y | t2b | b2t => rfl

theorem CheckedOutcome.mayEndWith (h : CheckedOutcome p s i (.next t)) : mayEndWith i t.err = true := by
  cases h with
  | invalidInput _ _ hrow => exact hrow
  | badRange _ _ hrange => exact mayEndWith_badRange hrange
  | invalidLength | invalidSymbol | overflow => rfl
  | completed => cases i <;> rfl

theorem CheckedOutcome.mayBeRefusedFor {r : Refusal} (h : CheckedOutcome p s i (.refused r)) :
    mayBeRefusedFor i r = true := by
  cases h with
  | refused _ _ _ _ hrow => exact hrow

end

/-- Settles O45: the length is T2Y's first check, and no other command has the code. -/
theorem t2yInvalidLength : Obligations.T2yInvalidLength :=
  ⟨fun s _ _ _ hn => (exec_outcome _ s).eq_invalidLength hn,
    fun i s _ h herr => (h ▸ exec_outcome i s).t2y_of_invalidLength herr⟩

/-- Settles O50: the range is the check after the length, and no other check has the code. -/
theorem badRangeTable : Obligations.BadRangeTable :=
  ⟨fun i s hlength hrange => (exec_outcome i s).eq_badRange hlength hrange,
    fun i s _ h herr => (h ▸ exec_outcome i s).rangeFails_of_badRange herr⟩

/-- Settles O52: of the outcomes that are next states, only a completed command has changed more. -/
theorem errorChangesOnlyErr : Obligations.ErrorChangesOnlyErr :=
  fun i s _ h herr => (h ▸ exec_outcome i s).eq_setErr herr

/-- Settles O53: each outcome stands in the row of its command. -/
theorem outcomesOfTheTable : Obligations.OutcomesOfTheTable :=
  fun i s => ⟨fun _ h => (h ▸ exec_outcome i s).mayEndWith, fun _ h => (h ▸ exec_outcome i s).mayBeRefusedFor⟩

/-- A string with a code outside the alphabet has no trits. -/
theorem trytesToTrits_of_invalid {cs : List Byte} (h : ∃ c ∈ cs, symToTriple c = none) :
    trytesToTrits cs = .error .invalidSymbol := by
  cases hts : trytesToTrits cs with
  | error e => rw [(trytesToTrits_error cs e hts).1]
  | ok ts =>
    obtain ⟨c, hc, hnone⟩ := h
    exact absurd hnone ((trytesToTrits_spec cs ts hts).2 c hc)

/-- Y2T of a string that has no trits raises the error of the lookup. -/
theorem y2tWith_of_trytesToTrits_error {p : Params} {s : State} {a b : Nat} {cs : List Byte} {e : ErrCode}
    (hb : b + cs.length ≤ p.sizeY) (ha : a + 3 * cs.length ≤ p.sizeT) (hcells : HoldsCells s.ymem b cs)
    (he : trytesToTrits cs = .error e) : y2tWith p a b cs.length s = .next (s.setErr e) := by
  have hread : s.ymem.readCells b (cs.length : Int).toNat = .ok cs := readCells_of_holdsCells _ _ _ hcells
  rcases y2tWith_cases p a b cs.length s with
    ⟨hrange, -⟩ | ⟨-, -, -, ⟨r, hr, -⟩ | ⟨cs', hcs', ⟨e', he', h⟩ | ⟨ts, hts, -⟩⟩⟩
  · omega
  · cases hread.symm.trans hr
  · cases hread.symm.trans hcs'
    cases he.symm.trans he'
    exact h
  · cases hread.symm.trans hcs'
    cases he.symm.trans hts

/-- Settles O43: the cells are all read before their codes are looked up, and a symbol of the string read is that of a
cell of the range. -/
theorem y2tInvalidSymbol : Obligations.Y2tInvalidSymbol := by
  refine ⟨fun p s a b cs hb ha hcells hbad =>
    y2tWith_of_trytesToTrits_error hb ha hcells (trytesToTrits_of_invalid hbad), fun p i s t h herr => ?_⟩
  obtain ⟨a, b, n, cs, rfl, hread, c, hc, hnone⟩ := (h ▸ commandWith_outcome p s i).y2t_of_invalidSymbol herr
  obtain ⟨hlen, hcells⟩ := (Memory.readCells_ok_iff _ _ _ _).1 hread
  obtain ⟨j, hj, rfl⟩ := List.getElem_of_mem hc
  exact ⟨a, b, n, b + j, cs[j], rfl, by omega, by omega, hcells j hj, hnone⟩

end Sys2Proof.Machine
end

section
/-! The hardware reset as an event (70_reset_and_hazards.md R240), and the good runs (R244). -/

namespace Sys2Proof.Machine

/-- A hardware reset always has a next state: the one re-created, with the event taken off and no returned value. -/
theorem step_of_pending_reset {s : State} {rest : List Event} (h : s.pending = .reset :: rest) :
    step s = .next (hardwareReset ((s.setPending rest).setResponse none)) :=
  step_of_pending_cons h

/-- Settles O8: each field of the next state is given by `hardwareReset`, which keeps `REFUSED`. -/
theorem hardwareResetEvent : Obligations.HardwareResetEvent := by
  intro s rest hp
  refine ⟨_, step_of_pending_reset hp, hardwareReset_ctx _, hardwareReset_phase _, hardwareReset_err _, ?_, ?_, ?_,
    hardwareReset_refused _, hardwareReset_pending _, hardwareReset_response _⟩
  all_goals exact Memory.read_nil

theorem runSteps_succ_of_next {s t : State} (k : Nat) (h : step s = .next t) : runSteps (k + 1) s = runSteps k t := by
  simp only [runSteps, h]

theorem runSteps_succ_of_refused {s : State} {r : Refusal} (k : Nat) (h : step s = .refused r) :
    runSteps (k + 1) s = s.markRefused := by
  simp only [runSteps, h, settle]

/-- A run ends unmarked exactly when it began unmarked and had a next state at each position: a refusal sets the mark and
ends the run there, and a next state keeps the mark as it was. -/
theorem runSteps_refused_eq_false_iff (k : Nat) (s : State) :
    (runSteps k s).refused = false ↔
      s.refused = false ∧ ∀ j, j < k → ∃ t, step (runSteps j s) = .next t := by
  induction k generalizing s with
  | zero => simp [runSteps]
  | succ k ih =>
    rw [Nat.forall_lt_succ_left]
    cases h : step s with
    | next t =>
      have hfirst : ∃ t, step (runSteps 0 s) = .next t := ⟨t, h⟩
      simp only [runSteps_succ_of_next _ h, ih t, step_refused_eq s t h, hfirst, true_and]
    | fault f => cases f
    | refused r =>
      have hfirst : ¬∃ t, step (runSteps 0 s) = .next t := by simp [runSteps, h]
      simp only [runSteps_succ_of_refused _ h, State.markRefused_refused, hfirst, false_and, and_false,
        Bool.true_eq_false]

/-- Settles O13: the run begins at reset, with the mark `REFUSED` clear. -/
theorem goodRunMeansNothingRefused : Obligations.GoodRunMeansNothingRefused := by
  intro es
  have hreset : (State.reset.setPending es).refused = false := rfl
  exact (runSteps_refused_eq_false_iff es.length _).trans (and_iff_right hreset)

end Sys2Proof.Machine
end
